-- ==== Sys2Proof/Word.lean ====
section
/-! DEFINITION. The widths of this hardware: bytes, instruction words, addresses, vector elements (R9, R10, R22, R25, R41, R55). -/

namespace Sys2Proof

/-- One byte of the address space (R41: the byte size is 8 bits). -/
abbrev Byte := BitVec 8

/-- One instruction word (R55: the instruction is exactly 32 bits long). -/
abbrev Word := BitVec 32

/-- One byte address, and the width of the program counter (R25, R41). -/
abbrev Addr := BitVec 64

/-- One 64-bit element of a vector register (R22: the `.D` view). -/
abbrev Lane := BitVec 64

end Sys2Proof
end

