-- ==== Sys2Proof/Machine/Flags.lean ====
section
/-! DEFINITION. The one Boolean of the instruction that could feed a flag: `SatQ`'s saturation indication (R14, R26). The
machine has no flags, and the instruction discards the indication (R26). -/

namespace Sys2Proof.Machine

/-- The least value of `n` bits, signed or unsigned (R14: `lo`). -/
def satLo (n : Nat) (unsigned : Bool) : Int := if unsigned then 0 else -(2 ^ (n - 1))

/-- The greatest value of `n` bits, signed or unsigned (R14: `hi`). -/
def satHi (n : Nat) (unsigned : Bool) : Int := if unsigned then 2 ^ n - 1 else 2 ^ (n - 1) - 1

/-- `SatQ(i, N, unsigned)` (R14): the clamped value, and whether it was clamped. PRESUMED by the spec (G3, log 11). -/
def satQ (i : Int) (n : Nat) (unsigned : Bool) : BitVec n × Bool :=
  if satHi n unsigned < i then (BitVec.ofInt n (satHi n unsigned), true)
  else if i < satLo n unsigned then (BitVec.ofInt n (satLo n unsigned), true)
  else (BitVec.ofInt n i, false)

end Sys2Proof.Machine
end

