-- ==== Sys2Proof/Syntax.lean ====
section
/-! DEFINITION. The instruction (R61, R62) and the assembler's grammar for it (R59, R67, R69). -/

namespace Sys2Proof

/-- The instructions of spec/opcode_table.json, one constructor per row. -/
inductive Instr where
  /-- `SQDECD (vector)` as the decoder answers it (R62), with the three fields of the encoding (R56). Every value of every
  field is a legal instruction (R63, R74), so this type has no ill-formed term. -/
  | sqdecdVector (imm4 : BitVec 4) (pattern : BitVec 5) (zdn : BitVec 5)
  deriving DecidableEq, Repr

/-- A written `<pattern>` (R59, R69): one of the seventeen names, or an immediate `#n`. -/
inductive PatSym where
  | pow2 | vl1 | vl2 | vl3 | vl4 | vl5 | vl6 | vl7 | vl8 | vl16 | vl32 | vl64 | vl128 | vl256
  | mul4 | mul3 | all
  /-- `#n`; whether `n` fits five bits is `AsmLine.check`'s question (R73 c). -/
  | uimm5 (n : Nat)
  deriving DecidableEq, Repr

/-- One written instruction, `SQDECD Z<reg>.<suffix>{, <pattern>{, MUL #<mul>}}` (R67), before any of R73's checks. -/
structure AsmLine where
  /-- The number written after `Z`. -/
  reg : Nat
  /-- The letter written after the dot. -/
  suffix : Char
  /-- The pattern, where one is written. -/
  pattern : Option PatSym
  /-- The multiplier, where one is written. -/
  mul : Option Nat
  deriving DecidableEq, Repr

end Sys2Proof
end

