-- ==== Sys2Proof/Decode.lean ====
section
/-! DEFINITION. The decoder (R56, R57, R58, R62), total on words and on bytes, and the encoder (R72). -/

namespace Sys2Proof

/-- The eighteen fixed bit positions (R57). -/
def sqdecdMask : Word := 0xFFF0FC00#32

/-- The fixed bits with every field zero (R57). -/
def sqdecdMatch : Word := 0x04E0C800#32

/-- R57: a word is an encoding of SQDECD (vector) if and only if this holds. -/
def isSqdecd (w : Word) : Bool := (w &&& sqdecdMask) == sqdecdMatch

/-- The field `imm4`, bits 19 to 16 (R56). -/
def fieldImm4 (w : Word) : BitVec 4 := w.extractLsb' 16 4

/-- The field `pattern`, bits 9 to 5 (R56). -/
def fieldPattern (w : Word) : BitVec 5 := w.extractLsb' 5 5

/-- The field `Zdn`, bits 4 to 0 (R56). -/
def fieldZdn (w : Word) : BitVec 5 := w.extractLsb' 0 5

/-- The decoder's two answers (R62). -/
inductive Decoded where
  /-- The word is an encoding of SQDECD (vector). -/
  | instr (i : Instr)
  /-- No source of the spec describes the word; it may be a good instruction of the hardware. -/
  | notInSpec (w : Word)
  deriving DecidableEq, Repr

/-- The decoder (R62). -/
def decode (w : Word) : Decoded :=
  if isSqdecd w then .instr (.sqdecdVector (fieldImm4 w) (fieldPattern w) (fieldZdn w)) else .notInSpec w

/-- The four bytes of a word in ascending address order (R42). PRESUMED by the spec (G5, log 14), unsafe. -/
def bytesOfWord (w : Word) : List Byte :=
  [w.extractLsb' 0 8, w.extractLsb' 8 8, w.extractLsb' 16 8, w.extractLsb' 24 8]

/-- The word that stands as the bytes `b0` to `b3`, `b0` at the lowest address (R42). -/
def wordOfBytes (b0 b1 b2 b3 : Byte) : Word := b3 ++ b2 ++ b1 ++ b0

/-- Why a list of bytes has no instruction at its head. -/
inductive DecodeRefusal where
  /-- Fewer than the four bytes every instruction has (R55, R66). -/
  | tooShort (bytes : List Byte)
  /-- The first four bytes are a word that the decoder does not know (R62). -/
  | notInSpec (w : Word)
  deriving DecidableEq, Repr

/-- The decoder on bytes, lowest address first: the instruction and the bytes after it (R66: its length is 4 bytes, known
without looking at anything else). -/
def decodeBytes : List Byte → Except DecodeRefusal (Instr × List Byte)
  | b0 :: b1 :: b2 :: b3 :: rest =>
    match decode (wordOfBytes b0 b1 b2 b3) with
    | .instr i => .ok (i, rest)
    | .notInSpec w => .error (.notInSpec w)
  | bytes => .error (.tooShort bytes)

/-- The assembling function on operands (R72): `dn` is 0 to 31 and `imm` is 1 to 16. -/
def encodeOperands (dn : Nat) (pat : BitVec 5) (imm : Nat) : Word :=
  sqdecdMatch ||| (BitVec.ofNat 32 (imm - 1) <<< 16) ||| (pat.setWidth 32 <<< 5) ||| BitVec.ofNat 32 dn

/-- The word of an instruction (R56, R72). -/
def encode : Instr → Word
  | .sqdecdVector imm4 pattern zdn => encodeOperands zdn.toNat pattern (imm4.toNat + 1)

/-- The instruction word whose bits are `w`, of which the table gives `nbits`: every bit above `nbits` is zero. -/
def tableWord (nbits w : Nat) : Word := BitVec.ofNat 32 (w % 2 ^ nbits)

/-- What this decoder reads from the bytes of the word whose bits are `w`, numbered as spec/opcode_table.json numbers them
(bit 0 the least significant of the one 32-bit word), laid out as R42 stores them. -/
def decodeTableWord (nbits w : Nat) : Option Instr :=
  match decodeBytes (bytesOfWord (tableWord nbits w)) with
  | .ok (i, _) => some i
  | .error _ => none

end Sys2Proof
end

