-- ==== Sys2Proof/Config.lean ====
section
/-! DEFINITION. The parameters of a run (R5 to R8), and the constants an implementation fixes that no proof can see. -/

namespace Sys2Proof

/-- A legal vector length (R5): `quads` counts the 128-bit units above the first, so that the sixteen values are exactly
128, 256, ..., 2048 bits.
PRESUMED (log 13): the bounds 128 and 2048 are the spec's general knowledge (G1). Unsafe if a chip had another length. -/
structure VecLen where
  quads : Fin 16
  deriving DecidableEq, Repr, Inhabited

/-- The vector length in bits, the `VL` of the pseudocode. -/
def VecLen.bits (v : VecLen) : Nat := 128 * (v.quads.val + 1)

/-- The number of 64-bit elements of a register, `VL DIV 64` (R22). -/
def VecLen.elements (v : VecLen) : Nat := v.bits / 64

/-- The outcome of `CheckSVEEnabled()` at the point the instruction executes (R7). -/
inductive SveAccess where
  /-- The call returns and execution continues. -/
  | enabled
  /-- The call raises an exception and nothing after it executes. -/
  | trapped
  deriving DecidableEq, Repr

/-- The five parameters of a run (R5 to R8). None of them is state in the spec (R20): no step changes them.
They travel inside `State` because a step of the host takes a state and nothing else; DESIGN CHOICE (log 1), safe: a
statement about every state is then a statement about every value of every parameter. -/
structure Params where
  /-- `VL`, constant for a whole run (R5, R30). -/
  vl : VecLen
  /-- `have_sve`, the value of `HaveSVE()` (R6). -/
  haveSve : Bool
  /-- `sve_access`, the outcome of `CheckSVEEnabled()` (R7). -/
  sveAccess : SveAccess
  /-- `prog`, the program text (R8). -/
  prog : List Word
  /-- `base`, the address of the first word of `prog` (R8). -/
  base : Addr
  deriving DecidableEq, Repr

/-- The vector length the machine starts with: left OPEN by the spec (R5, D2), so no proof can see which it is.
DESIGN CHOICE (log 3). -/
opaque Config.vl : VecLen

/-- What the 32 vector registers hold at the start of a run: the spec gives no value, says the start state is arbitrary and
that a modeller must not take zero (R33, U9), so no proof can see any bit of it. DESIGN CHOICE (log 2). -/
opaque Config.startZ (vl : VecLen) : Vector (BitVec vl.bits) 32

end Sys2Proof
end

