-- ==== Sys2Proof/Machine/Operands.lean ====
section
/-! DEFINITION. The pseudocode primitives on bits and integers (R11 to R15) and every operand form of the instruction: its
register number, its multiplier and its predicate-constraint count (R58, R80, R81). -/

namespace Sys2Proof.Machine

/-- `UInt(x)` (R11). -/
def uInt {n : Nat} (x : BitVec n) : Nat := x.toNat

/-- `SInt(x)`, the two's-complement value (R12). PRESUMED by the spec (G3, log 11). -/
def sInt {n : Nat} (x : BitVec n) : Int := x.toInt

/-- `Int(x, unsigned)` (R12). -/
def intOf {n : Nat} (x : BitVec n) (unsigned : Bool) : Int :=
  if unsigned then (uInt x : Int) else sInt x

/-- `Elem[vector, e, size]`, read (R13): element 0 is the least significant. PRESUMED by the spec (G3, log 11). -/
def elemGet {n : Nat} (vector : BitVec n) (e size : Nat) : BitVec size := vector.extractLsb' (e * size) size

/-- `Elem[vector, e, size] = value` (R13): those `size` bits are replaced and every other bit stays. -/
def elemSet {n : Nat} (vector : BitVec n) (e size : Nat) (value : BitVec size) : BitVec n :=
  (vector &&& ~~~((BitVec.allOnes size).setWidth n <<< (e * size))) ||| (value.setWidth n <<< (e * size))

/-- `FloorPow2(x)`: the largest power of two that is at most `x`, for `x` at least 1 (R81). -/
def floorPow2 (x : Nat) : Nat := 2 ^ x.log2

/-- The count of a fixed constraint `VLn`: `n` if the register has at least `n` elements, else 0 (R80). -/
def fixedCount (elements n : Nat) : Nat := if n ≤ elements then n else 0

/-- `DecodePredCount(pat, esize)` for a register of `vl` bits (R80). DEDUCED by the spec from the source's prose (log 12). -/
def decodePredCount (vl : Nat) (pat : BitVec 5) (esize : Nat) : Nat :=
  let elements := vl / esize
  match pat with
  | 0b00000#5 => floorPow2 elements
  | 0b00001#5 => fixedCount elements 1
  | 0b00010#5 => fixedCount elements 2
  | 0b00011#5 => fixedCount elements 3
  | 0b00100#5 => fixedCount elements 4
  | 0b00101#5 => fixedCount elements 5
  | 0b00110#5 => fixedCount elements 6
  | 0b00111#5 => fixedCount elements 7
  | 0b01000#5 => fixedCount elements 8
  | 0b01001#5 => fixedCount elements 16
  | 0b01010#5 => fixedCount elements 32
  | 0b01011#5 => fixedCount elements 64
  | 0b01100#5 => fixedCount elements 128
  | 0b01101#5 => fixedCount elements 256
  | 0b11101#5 => elements - elements % 4
  | 0b11110#5 => elements - elements % 3
  | 0b11111#5 => elements
  | _ => 0

/-- The element size of the instruction (R58: `integer esize = 64`). -/
def esize : Nat := 64

/-- The signedness of the instruction (R58: `boolean unsigned = FALSE`). -/
def isUnsigned : Bool := false

/-- The register number `dn = UInt(Zdn)` (R58, R60): all 32 values name a register. -/
def regNumber (zdn : BitVec 5) : Fin 32 := ⟨uInt zdn, zdn.isLt⟩

/-- The multiplier `imm = UInt(imm4) + 1` (R58). -/
def multiplier (imm4 : BitVec 4) : Nat := uInt imm4 + 1

/-- `dec = count * imm`, what every element is decremented by (R83). -/
def decrement (vl : VecLen) (pattern : BitVec 5) (imm4 : BitVec 4) : Nat :=
  decodePredCount vl.bits pattern esize * multiplier imm4

end Sys2Proof.Machine
end

