-- ==== Sys2Proof/Machine/State.lean ====
section
/-! DEFINITION. The state (R20), the reasons a step can stop (R125), and the state at the start of a run (R33, R34, R130). -/

namespace Sys2Proof.Machine

/-- The state of the machine. The spec's state is exactly `z` and `pc` (R20); `par` holds the parameters of the run, which no
step changes (log 1). -/
structure State where
  /-- The parameters of the run (R5 to R8). -/
  par : Params
  /-- The 32 scalable vector registers `Z[0]` to `Z[31]`, of `VL` bits each (R21). -/
  z : Vector (BitVec par.vl.bits) 32
  /-- The address of the instruction being executed (R25). -/
  pc : Addr
  deriving DecidableEq, Repr

/-- The fault reasons of the spec: R125's closed type of two constructors. -/
inductive FaultReason where
  /-- Raised by `SQDECD (vector)` when SVE is not implemented (R111). Exact: the source states it; that nothing follows it is
  safe (R116). -/
  | undefinedInstruction
  /-- Raised by `SQDECD (vector)` when SVE is implemented and the SVE enable check fails (R112). Exact as to the state; it
  stands for whichever exception the architecture takes; that nothing follows it is safe (R116). -/
  | sveAccessTrap
  deriving DecidableEq, Repr

/-- The refusal reasons of the spec: R125's closed type of one constructor. -/
inductive RefusalReason where
  /-- The word is not an encoding of SQDECD (vector) (R62). Safe: the hardware may well have the instruction, and the model says
  nothing about it. -/
  | notInSpec (word : Word)
  deriving DecidableEq, Repr

/-- The outcome of a step as R18 has it: four ways, of which `final` is neither a fault nor a refusal (R133). The host's own
outcome type has three; `specOutcome` (Machine/Outcome.lean) reads this one off it. -/
inductive StepOutcome where
  /-- The instruction completed. -/
  | next (s : State)
  /-- The instruction raised an exception; the state is the one the step began in (R115; log 9). -/
  | fault (reason : FaultReason)
  /-- The word at `pc` has no meaning in the spec; the state is the one the step began in (R25; log 9). -/
  | refused (reason : RefusalReason)
  /-- `pc` stands one word past the end of `prog`. -/
  | final
  deriving DecidableEq, Repr

/-- Why the machine stops, in the host's three-way outcome. The spec's own fault reasons are the first constructor's; the other
two name the places where a run has no next step, which the host's type has no constructor for. A stop carries no state: the
state is the one the step began in, unchanged (R25, R115; log 9). -/
inductive Fault where
  /-- An exception of the spec (R125), raised by the instruction; its reason says whether that is exact or safe. -/
  | exception (reason : FaultReason)
  /-- Answered by `step` where the spec gives no behaviour: `pc` is neither the address of a word of `prog` nor its end, or
  `base` is not a multiple of 4, or the program runs past the top of the address space (R8, R41, R43, R133). No run reaches
  it. DESIGN CHOICE (log 8), safe. -/
  | noInstructionAtPc
  /-- Answered by `step` when `pc` stands one word past the last word of `prog`: it carries the spec's outcome `Final` (R18,
  R133), which is no fault in `StepOutcome`. DESIGN CHOICE (log 7), safe. -/
  | endOfProgram
  deriving DecidableEq, Repr

/-- Why the model gives a word no meaning, in the host's outcome. -/
inductive Refusal where
  /-- The host's name for an instruction without a meaning; no arm of `exec` answers it. Safe (log 20). -/
  | notModelled (mnemonic : String)
  /-- A refusal of the spec (R125), answered by `step` on a word that is not in the spec. Safe. -/
  | unspecified (reason : RefusalReason)
  deriving DecidableEq, Repr

/-- The start state of a run: it is an argument of the model, the parameters and the contents of the registers, and the
program counter is at `base` (R33, R34, R130). -/
def State.start (par : Params) (z : Vector (BitVec par.vl.bits) 32) : State := ⟨par, z, par.base⟩

/-- The parameters at reset. The spec leaves each open (D2, D3, D4, D8). DESIGN CHOICE: the vector length is a constant no
proof can see (log 3); SVE is implemented and enabled, as R132 asks before anything can run (log 4, unsafe); no program is
loaded and `base` is 0 (log 5, unsafe). -/
def Params.reset : Params :=
  { vl := Config.vl, haveSve := true, sveAccess := .enabled, prog := [], base := 0 }

/-- The machine right after reset: a start state (R130: there is no reset step) whose registers hold values that no proof can
see (R33; log 2). -/
def State.reset : State := State.start Params.reset (Config.startZ Config.vl)

end Sys2Proof.Machine
end

