-- ==== Sys2Proof/WellFormed.lean ====
section
/-! DEFINITION. What is well-formed, each failure by name (R73, R5, R8, R133). `Instr` needs no check: every combination of
its fields is a legal instruction (R63, R74). The checks stand on written instructions and on the parameters of a run. -/

namespace Sys2Proof

/-- Why an input is not well-formed. -/
inductive IllFormed where
  /-- R73 (a): a multiplier of 0 or of 17 or more. -/
  | multiplier
  /-- R73 (b): a register number outside 0 to 31. -/
  | register
  /-- R73 (c): a pattern immediate outside 0 to 31. -/
  | patternImmediate
  /-- R73 (d): an element suffix other than `.D`. -/
  | suffix
  /-- R73 (e): a multiplier without a pattern. -/
  | multiplierWithoutPattern
  /-- R73 (f): a vector length that is not a multiple of 128 between 128 and 2048. -/
  | vectorLength
  /-- R8: the address of the program is not a multiple of 4. -/
  | baseAlignment
  /-- R133: the program runs past the top of the address space. -/
  | programPastTop
  /-- R69: a pattern name that the value table does not have. -/
  | patternName
  /-- R67: the text is not of the template's form at all. -/
  | template
  deriving DecidableEq, Repr

/-- The immediate of a written pattern fits the five bits of its field (R73 c). -/
def PatSym.inRange : PatSym → Bool
  | .uimm5 n => n ≤ 31
  | _ => true

/-- R73 (a) to (e): the first thing wrong with a written instruction, if anything is. -/
def AsmLine.check (l : AsmLine) : Option IllFormed :=
  if 31 < l.reg then some .register
  else if l.suffix ≠ 'D' then some .suffix
  else match l.pattern, l.mul with
    | none, some _ => some .multiplierWithoutPattern
    | none, none => none
    | some p, m =>
      if p.inRange = false then some .patternImmediate
      else match m with
        | none => none
        | some k => if 1 ≤ k ∧ k ≤ 16 then none else some .multiplier

/-- R73 (f): the vector length of `n` bits, refused where it is not legal (R5). -/
def VecLen.ofBits (n : Nat) : Except IllFormed VecLen :=
  if n % 128 = 0 ∧ 128 ≤ n ∧ n ≤ 2048 then .ok ⟨Fin.ofNat 16 (n / 128 - 1)⟩ else .error .vectorLength

/-- The conditions of R8 and R133 on where the program stands. -/
def Params.check (p : Params) : Option IllFormed :=
  if p.base.toNat % 4 ≠ 0 then some .baseAlignment
  else if 2 ^ 64 < p.base.toNat + 4 * p.prog.length then some .programPastTop
  else none

/-- The program stands at a multiple of 4 (R8) and does not run past the top of the address space (R133). -/
def Params.legal (p : Params) : Bool := p.check == none

end Sys2Proof
end

