-- ==== Sys2Proof/Machine/Ops.lean ====
section
/-! DEFINITION. The operations every step is made of: the vector registers, the program counter, the two checks and what
raising an exception is, the address space and the fetch, and placing a word where the next fetch reads it. -/

namespace Sys2Proof.Machine

/-- The three outcomes of a step. -/
abbrev Result := Host.Outcome State Fault Refusal

/-- `Z[n]`, read (R17, R21): register 31 is an ordinary register. -/
def State.readZ (s : State) (n : Fin 32) : BitVec s.par.vl.bits := s.z.get n

/-- `Z[n] <- v` (R17, R21): all `VL` bits at once. -/
def State.writeZ (s : State) (n : Fin 32) (v : BitVec s.par.vl.bits) : State :=
  { s with z := s.z.set n.val v n.isLt }

/-- Element `e` of `Z[n]` in the 64-bit view (R22). -/
def State.lane (s : State) (n : Fin 32) (e : Nat) : Lane := elemGet (s.readZ n) e 64

/-- `pc <- pc + 4`, modulo `2^64` (R25). -/
def State.advancePc (s : State) : State := { s with pc := s.pc + 4 }

/-- Taking an exception. The spec describes no entry, no saved register, no handler and no return (R116, R117): the outcome is
a fault, the run stops, and nothing is written (R115). The state is an argument so that an entry, were one described, would
have its one place here. -/
def raise (cause : FaultReason) (_s : State) : Result := .fault (.exception cause)

/-- `if !HaveSVE() then UNDEFINED;` before the rest of the instruction (R16, R111). -/
def requireSve (s : State) (rest : Result) : Result :=
  if s.par.haveSve then rest else raise .undefinedInstruction s

/-- `CheckSVEEnabled();` before the rest of the instruction (R16, R112). -/
def checkSveEnabled (s : State) (rest : Result) : Result :=
  match s.par.sveAccess with
  | .enabled => rest
  | .trapped => raise .sveAccessTrap s

/-- The address space as (address, byte) pairs with rising addresses; an address that is not listed is absent (R45). -/
abbrev Memory := List Host.Cell

/-- The canonical form: addresses strictly rising. An unlisted address reads as no value, so no entry can equal it. -/
def Memory.wf : Memory → Bool
  | [] => true
  | [_] => true
  | c :: d :: rest => decide (c.1 < d.1) && Memory.wf (d :: rest)

/-- The byte at an address, if the address exists (R41, R45). -/
def Memory.read (m : Memory) (a : Nat) : Option Byte := m.lookup a

/-- `MemRead(a, 4)` as one little-endian word (R41, R42). -/
def Memory.readWord (m : Memory) (a : Nat) : Option Word :=
  match Memory.read m a, Memory.read m (a + 1), Memory.read m (a + 2), Memory.read m (a + 3) with
  | some b0, some b1, some b2, some b3 => some (wordOfBytes b0 b1 b2 b3)
  | _, _, _, _ => none

/-- The bytes of one word from address `a` on (R42). -/
def wordCells (a : Nat) (w : Word) : Memory :=
  [(a, w.extractLsb' 0 8), (a + 1, w.extractLsb' 8 8), (a + 2, w.extractLsb' 16 8), (a + 3, w.extractLsb' 24 8)]

/-- The bytes of a list of words from address `a` on, word `i` at `a + 4 * i` (R8). -/
def programText : Nat → List Word → Memory
  | _, [] => []
  | a, w :: ws => wordCells a w ++ programText (a + 4) ws

/-- The address space of the machine: the program text at `base`, everything else absent (R41, R45). It is computed from the
parameters, so no step changes it (R50). -/
def State.memory (s : State) : Memory := programText s.par.base.toNat s.par.prog

/-- How far `pc` stands from `base`, in bytes. -/
def State.pcOffset (s : State) : Nat := (s.pc - s.par.base).toNat

/-- The address one word past the last word of the program, modulo `2^64` (R133; log 10). -/
def State.endAddr (s : State) : Addr := s.par.base + BitVec.ofNat 64 (4 * s.par.prog.length)

/-- What the fetch finds at `pc`. -/
inductive Fetched where
  /-- A word of the program. -/
  | word (w : Word)
  /-- The end of the program (R133). -/
  | programEnd
  /-- Nothing the spec gives a behaviour to (R41, R43). -/
  | nothing
  deriving DecidableEq, Repr

/-- The fetch at `pc` (R41): a whole word of the program, the end of the program, or nothing. It asks first that the program
stand where R8, R43, R132 (d) and R133 have it, at a multiple of 4 and below the top of the address space; where it does not, the
spec gives no behaviour and the fetch finds nothing. DESIGN CHOICE (log 8), safe. -/
def State.fetch (s : State) : Fetched :=
  if s.par.legal then
    match (if s.pcOffset % 4 = 0 then s.memory.readWord s.pc.toNat else none) with
    | some w => .word w
    | none => if s.pc = s.endAddr then .programEnd else .nothing
  else .nothing

/-- The state with `prog` and `base` replaced, everything else kept. -/
def State.withProgram (s : State) (prog : List Word) (base : Addr) : State :=
  { s with par := { s.par with prog := prog, base := base } }

/-- `pc` with its two low bits cleared: the same `pc` wherever it is a multiple of 4, as it is in every run (R25, R43). -/
def State.alignPc (s : State) : State := { s with pc := s.pc - BitVec.ofNat 64 (s.pc.toNat % 4) }

/-- The program and its base with `w` as the word that the fetch at an aligned `pc` reads: where the program stands legally, in
place of the word at `pc`, or after the last word where `pc` stands at the end; otherwise as the whole program, at `pc`. -/
def State.placed (s : State) (w : Word) : List Word × Addr :=
  if s.par.legal = true ∧ s.par.base.toNat ≤ s.pc.toNat ∧ s.pcOffset % 4 = 0 ∧ s.pcOffset < 4 * s.par.prog.length then
    (s.par.prog.set (s.pcOffset / 4) w, s.par.base)
  else if s.par.legal = true ∧ s.par.base.toNat ≤ s.pc.toNat ∧ s.pcOffset = 4 * s.par.prog.length then
    (s.par.prog ++ [w], s.par.base)
  else ([w], s.pc)

/-- `s` with `w` as the word that the next fetch reads, everything else kept that the fetch does not need. It stands for loading
the program from outside (log 5). -/
def State.placeWord (s : State) (w : Word) : State :=
  s.alignPc.withProgram (s.alignPc.placed w).1 (s.alignPc.placed w).2

end Sys2Proof.Machine
end

