-- ==== Sys2Proof/Machine/Sqdecd.lean ====
section
/-! DEFINITION. The meaning of `SQDECD (vector)` (R83). -/

namespace Sys2Proof.Machine

/-- The new value of one element: `SatQ(element1 - dec, esize, unsigned)`, its saturation indication discarded (R83, R26). -/
def decrementLane (x : Lane) (dec : Nat) : Lane := (satQ (intOf x isUnsigned - (dec : Int)) esize isUnsigned).1

/-- The loop of R83: `result` built element by element from the old value of the register alone (R23). The bits `result` holds
before the loop are never seen, because the elements tile the register (R93; log 15). -/
def decrementLanes {vl : Nat} (operand1 : BitVec vl) (dec : Nat) : BitVec vl :=
  (List.range (vl / esize)).foldl
    (fun result e => elemSet result e esize (decrementLane (elemGet operand1 e esize) dec)) 0

/-- `SQDECD (vector)` (R83): both checks, then one write of `Z[dn]` and the advance of `pc`. -/
def execSqdecdVector (imm4 : BitVec 4) (pattern : BitVec 5) (zdn : BitVec 5) (s : State) : Result :=
  requireSve s <|
    checkSveEnabled s <|
      .next (s.writeZ (regNumber zdn)
        (decrementLanes (s.readZ (regNumber zdn)) (decrement s.par.vl pattern imm4))).advancePc

end Sys2Proof.Machine
end

