-- ==== Sys2Proof/Machine/Dispatch.lean ====
section
/-! DEFINITION. From an instruction to its meaning. -/

namespace Sys2Proof.Machine

def exec (i : Instr) (s : State) : Host.Outcome State Fault Refusal :=
  match i with
  | .sqdecdVector imm4 pattern zdn => Sys2Proof.Machine.execSqdecdVector imm4 pattern zdn s

end Sys2Proof.Machine
end

