-- ==== Sys2Proof/Machine/Step.lean ====
section
/-! DEFINITION. One step: fetch, decode, execute (R18, R41, R62, R83); and the placing of the next instruction. -/

namespace Sys2Proof.Machine

/-- One step of the one agent (R18). `Next`, the two exceptions and `Refused` are R18's own; its `Final` is carried by
`endOfProgram` (log 7), and a place that the spec gives no behaviour is `noInstructionAtPc` (log 8).
`specStep` (Machine/Outcome.lean) is this step in R18's own four outcomes. -/
def step (s : State) : Host.Outcome State Fault Refusal :=
  match s.fetch with
  | .word w =>
    match decode w with
    | .instr i => exec i s
    | .notInSpec v => .refused (.unspecified (.notInSpec v))
  | .programEnd => .fault .endOfProgram
  | .nothing => .fault .noInstructionAtPc

/-- `s` with the instruction whose bits are `w` placed where `step` fetches its next instruction. -/
def State.withFetchWord (s : State) (nbits w : Nat) : State := s.placeWord (tableWord nbits w)

end Sys2Proof.Machine
end

