-- ==== Sys2Proof/Machine/Assembler.lean ====
section
/-! DEFINITION. The assembling and the disassembling function (R59, R67 to R72) and the text of a written instruction. -/

namespace Sys2Proof.Machine

/-- The 5-bit `pattern` of a written pattern (R59, R69: `#n` encodes `n`). -/
def patternCode : PatSym → BitVec 5
  | .pow2 => 0b00000#5
  | .vl1 => 0b00001#5
  | .vl2 => 0b00010#5
  | .vl3 => 0b00011#5
  | .vl4 => 0b00100#5
  | .vl5 => 0b00101#5
  | .vl6 => 0b00110#5
  | .vl7 => 0b00111#5
  | .vl8 => 0b01000#5
  | .vl16 => 0b01001#5
  | .vl32 => 0b01010#5
  | .vl64 => 0b01011#5
  | .vl128 => 0b01100#5
  | .vl256 => 0b01101#5
  | .mul4 => 0b11101#5
  | .mul3 => 0b11110#5
  | .all => 0b11111#5
  | .uimm5 n => BitVec.ofNat 5 n

/-- The seventeen named patterns (R59). -/
def namedPatterns : List PatSym :=
  [.pow2, .vl1, .vl2, .vl3, .vl4, .vl5, .vl6, .vl7, .vl8, .vl16, .vl32, .vl64, .vl128, .vl256, .mul4, .mul3, .all]

/-- The symbol the disassembler prints for a `pattern` (R69): its name where it has one, `#n` otherwise. -/
def patternSymbol (pat : BitVec 5) : PatSym :=
  match namedPatterns.find? (fun p => patternCode p == pat) with
  | some p => p
  | none => .uimm5 pat.toNat

/-- A number as it is written, in decimal (R71). -/
def decimal (n : Nat) : List Char := Nat.toDigits 10 n

/-- The written form of a pattern symbol (R59, R69). -/
def patternText : PatSym → List Char
  | .pow2 => "POW2".toList
  | .vl1 => "VL1".toList
  | .vl2 => "VL2".toList
  | .vl3 => "VL3".toList
  | .vl4 => "VL4".toList
  | .vl5 => "VL5".toList
  | .vl6 => "VL6".toList
  | .vl7 => "VL7".toList
  | .vl8 => "VL8".toList
  | .vl16 => "VL16".toList
  | .vl32 => "VL32".toList
  | .vl64 => "VL64".toList
  | .vl128 => "VL128".toList
  | .vl256 => "VL256".toList
  | .mul4 => "MUL4".toList
  | .mul3 => "MUL3".toList
  | .all => "ALL".toList
  | .uimm5 n => '#' :: decimal n

/-- The fixed text before the register number (R67). -/
def mnemonicText : List Char := "SQDECD Z".toList

/-- The fixed text before the pattern (R67). -/
def commaText : List Char := ", ".toList

/-- The fixed text before the multiplier (R67). -/
def mulText : List Char := ", MUL #".toList

/-- The word a written instruction assembles to, or why it is refused (R68, R72, R73): an omitted pattern is `ALL` and an
omitted multiplier is 1. -/
def assemble (l : AsmLine) : Except IllFormed Word :=
  match l.check with
  | some e => .error e
  | none => .ok (encodeOperands l.reg (patternCode (l.pattern.getD .all)) (l.mul.getD 1))

/-- The canonical spelling of an instruction, the shortest the template allows (R71). DESIGN CHOICE of the spec (D16). -/
def canonicalLine : Instr → AsmLine
  | .sqdecdVector imm4 pattern zdn =>
    { reg := zdn.toNat
      suffix := 'D'
      pattern := if imm4 ≠ 0b0000#4 ∨ pattern ≠ 0b11111#5 then some (patternSymbol pattern) else none
      mul := if imm4 ≠ 0b0000#4 then some (imm4.toNat + 1) else none }

/-- The disassembling function (R71): nothing for a word that is not in the spec. -/
def disassemble (w : Word) : Option AsmLine :=
  match decode w with
  | .instr i => some (canonicalLine i)
  | .notInSpec _ => none

/-- The text of a written instruction, as the template spells it (R67). -/
def lineText (l : AsmLine) : List Char :=
  mnemonicText ++ decimal l.reg ++ ['.', l.suffix] ++
    (match l.pattern with
      | some p => commaText ++ patternText p
      | none => []) ++
    (match l.mul with
      | some k => mulText ++ decimal k
      | none => [])

/-- The text after a fixed piece of text, where it starts with that piece. -/
def dropText : List Char → List Char → Option (List Char)
  | [], t => some t
  | c :: p, d :: t => if c = d then dropText p t else none
  | _ :: _, [] => none

/-- The decimal digits at the head of a text, and the text after them. -/
def spanDigits : List Char → List Char × List Char
  | [] => ([], [])
  | c :: t => if c.isDigit then ((c :: (spanDigits t).1), (spanDigits t).2) else ([], c :: t)

/-- A decimal number at the head of a text, written without leading zeros, and the text after it. -/
def takeNumber (t : List Char) : Option (Nat × List Char) :=
  let (ds, rest) := spanDigits t
  let n := ds.foldl (fun acc c => 10 * acc + (c.toNat - '0'.toNat)) 0
  if decimal n = ds then some (n, rest) else none

/-- The text up to the first comma, and the text from that comma on. -/
def spanToComma : List Char → List Char × List Char
  | [] => ([], [])
  | c :: t => if c = ',' then ([], c :: t) else ((c :: (spanToComma t).1), (spanToComma t).2)

/-- The pattern symbol with the given text: a name of R59's table, or `#n` (R69). -/
def readPattern (t : List Char) : Except IllFormed PatSym :=
  match namedPatterns.find? (fun p => patternText p == t) with
  | some p => .ok p
  | none =>
    match t with
    | '#' :: ds =>
      match takeNumber ds with
      | some (n, []) => .ok (.uimm5 n)
      | _ => .error .template
    | _ => .error .patternName

/-- `, MUL #<imm>` and nothing after it, or nothing at all (R67). -/
def readMul (t : List Char) : Except IllFormed (Option Nat) :=
  match t with
  | [] => .ok none
  | _ =>
    match dropText mulText t with
    | none => .error .template
    | some ds =>
      match takeNumber ds with
      | some (k, []) => .ok (some k)
      | _ => .error .template

/-- What stands after the register and its suffix: an optional pattern and an optional multiplier (R67). A multiplier without a
pattern is read here, for `AsmLine.check` to refuse by its name (R73 e). -/
def readTail (t : List Char) : Except IllFormed (Option PatSym × Option Nat) :=
  match t with
  | [] => .ok (none, none)
  | _ =>
    match dropText mulText t with
    | some _ => (readMul t).map (fun m => (none, m))
    | none =>
      match dropText commaText t with
      | none => .error .template
      | some r =>
        match readPattern (spanToComma r).1 with
        | .error e => .error e
        | .ok p => (readMul (spanToComma r).2).map (fun m => (some p, m))

/-- The written instruction of a text (R67). DESIGN CHOICE (log 17): upper case, one blank after the mnemonic and after each
comma, one before the multiplier's `#`, no leading zeros. Safe: another spelling is refused. -/
def readLine (t : List Char) : Except IllFormed AsmLine :=
  match dropText mnemonicText t with
  | none => .error .template
  | some t1 =>
    match takeNumber t1 with
    | some (reg, '.' :: suffix :: t2) =>
      (readTail t2).map (fun pm => { reg := reg, suffix := suffix, pattern := pm.1, mul := pm.2 })
    | _ => .error .template

/-- From the text of an instruction to its word (R67 to R73). -/
def assembleText (t : List Char) : Except IllFormed Word :=
  match readLine t with
  | .error e => .error e
  | .ok l => assemble l

/-- From a word to its canonical text (R71). -/
def disassembleText (w : Word) : Option (List Char) := (disassemble w).map lineText

end Sys2Proof.Machine
end

