-- ==== Sys2Proof/Machine/Outcome.lean ====
section
/-! DEFINITION. The step in the spec's own four outcomes (R18) and its own closed types of reasons (R125), read off the host's
three-way outcome. -/

namespace Sys2Proof.Machine

/-- R18's outcome of what the host's outcome carries; none where the spec gives no behaviour at all (log 8), and for the
refusal that stands there for the host's form only and that nothing answers (log 20). -/
def specOutcome : Result → Option StepOutcome
  | .next s => some (.next s)
  | .fault (.exception reason) => some (.fault reason)
  | .fault .endOfProgram => some .final
  | .fault .noInstructionAtPc => none
  | .refused (.unspecified reason) => some (.refused reason)
  | .refused _ => none

/-- One step as R18 states it. -/
def specStep (s : State) : Option StepOutcome := specOutcome (step s)

end Sys2Proof.Machine
end

