-- ==== Sys2Proof/Safety.lean ====
section
/-! DEFINITION. What counts as a safe run, in the terms the statements use: a state a run can be in, a state in which the
instruction executes normally, and the end of a run. -/

namespace Sys2Proof.Machine

/-- The invariant of a run: the program stands where R8 and R133 allow it, and `pc` is the address of one of its words or its
end (R25, R41). -/
abbrev State.Inv (s : State) : Prop :=
  s.par.legal = true ∧ s.pcOffset % 4 = 0 ∧ s.pcOffset ≤ 4 * s.par.prog.length

/-- R132 (a) and (b): SVE is implemented and enabled, the two conditions under which `SQDECD (vector)` executes normally. -/
abbrev State.sveReady (s : State) : Prop := s.par.haveSve = true ∧ s.par.sveAccess = .enabled

/-- A final state (R133): `pc` stands one word past the last word of the program. -/
abbrev State.isFinal (s : State) : Prop := s.pc = s.endAddr

/-- The instructions of a list, one after another, stopping at the first that does not complete: what R94 and R95 speak of. -/
def execAll : List Instr → State → Result
  | [], s => .next s
  | i :: rest, s =>
    match exec i s with
    | .next t => execAll rest t
    | .fault r => .fault r
    | .refused r => .refused r

/-- What an instruction does at a vector length, as R95 says it: the register and the decrement. -/
def decrementOf (v : VecLen) : Instr → Fin 32 × Nat
  | .sqdecdVector imm4 pattern zdn => (regNumber zdn, decrement v pattern imm4)

end Sys2Proof.Machine
end

