-- ==== Sys2Proof/Certificates/Slice0/Obligations.lean ====
section
/-! DEFINITION. The statements for the provers, from the spec's numbered rules. -/

open Sys2Proof Sys2Proof.Machine

/-! ### Encoding -/

/-- Sample words of 95_test_vectors.md T6 decode to the fields listed beside them, and foreign words are refused by name. -/
def Obligations.SampleWordsDecode : Prop :=
  decode 0x04E0C800#32 = .instr (.sqdecdVector 0b0000#4 0b00000#5 0b00000#5) ∧
  decode 0x04EFCBFF#32 = .instr (.sqdecdVector 0b1111#4 0b11111#5 0b11111#5) ∧
  decode 0x04E0CBE0#32 = .instr (.sqdecdVector 0b0000#4 0b11111#5 0b00000#5) ∧
  decode 0x04E4C87F#32 = .instr (.sqdecdVector 0b0100#4 0b00011#5 0b11111#5) ∧
  decode 0x04E8CACF#32 = .instr (.sqdecdVector 0b1000#4 0b10110#5 0b01111#5) ∧
  decode 0x04E5CAB5#32 = .instr (.sqdecdVector 0b0101#4 0b10101#5 0b10101#5) ∧
  decode 0x0420BCE0#32 = .notInSpec 0x0420BCE0#32 ∧
  decode 0xD503201F#32 = .notInSpec 0xD503201F#32 ∧
  decode 0x04E0CC00#32 = .notInSpec 0x04E0CC00#32

/-- R57: a word is an encoding of SQDECD (vector) if and only if the mask gives the match; the mask has its ones at the
eighteen fixed positions; there are exactly `2^14` such words. -/
def Obligations.EncodingsAreTheMatchingWords : Prop :=
  (∀ w : Word, (∃ i, decode w = .instr i) ↔ w &&& 0xFFF0FC00#32 = 0x04E0C800#32) ∧
  (∀ k, k < 32 → ((0xFFF0FC00#32).getLsbD k = true ↔ 20 ≤ k ∨ (10 ≤ k ∧ k ≤ 15))) ∧
  encode (.sqdecdVector 0 0 0) = 0x04E0C800#32 ∧
  ∃ l : List Word, l.Nodup ∧ l.length = 2 ^ 14 ∧ ∀ w : Word, w ∈ l ↔ w &&& 0xFFF0FC00#32 = 0x04E0C800#32

/-- R62: the decoder's two answers, the step's refusal of a word that is not in the spec, and injectivity. -/
def Obligations.DecoderHasTwoAnswers : Prop :=
  (∀ w : Word, w &&& 0xFFF0FC00#32 = 0x04E0C800#32 →
    decode w = .instr (.sqdecdVector (w.extractLsb' 16 4) (w.extractLsb' 5 5) (w.extractLsb' 0 5))) ∧
  (∀ w : Word, w &&& 0xFFF0FC00#32 ≠ 0x04E0C800#32 → decode w = .notInSpec w) ∧
  (∀ (s : State) (w : Word), s.fetch = .word w → w &&& 0xFFF0FC00#32 ≠ 0x04E0C800#32 →
    step s = .refused (.unspecified (.notInSpec w))) ∧
  (∀ v w : Word, v &&& 0xFFF0FC00#32 = 0x04E0C800#32 → w &&& 0xFFF0FC00#32 = 0x04E0C800#32 →
    decode v = decode w → v = w)

/-- Every instruction reads back from its word, from its bytes and from its bits as the opcode table numbers them. -/
def Obligations.EncodedInstructionsDecode : Prop :=
  ∀ i : Instr, decode (encode i) = .instr i ∧
    (∀ rest, decodeBytes (bytesOfWord (encode i) ++ rest) = .ok (i, rest)) ∧
    decodeTableWord 32 (encode i).toNat = some i

/-- R72: the assembling function and its two inverse laws, with its worked examples. -/
def Obligations.AssemblingFunctionInvertsDecoder : Prop :=
  (∀ (dn : Nat) (pat : BitVec 5) (imm : Nat), dn ≤ 31 → 1 ≤ imm → imm ≤ 16 →
    encodeOperands dn pat imm =
        0x04E0C800#32 ||| (BitVec.ofNat 32 (imm - 1) <<< 16) ||| (pat.setWidth 32 <<< 5) ||| BitVec.ofNat 32 dn ∧
    decode (encodeOperands dn pat imm) = .instr (.sqdecdVector (BitVec.ofNat 4 (imm - 1)) pat (BitVec.ofNat 5 dn))) ∧
  (∀ (w : Word) (imm4 : BitVec 4) (pattern zdn : BitVec 5), decode w = .instr (.sqdecdVector imm4 pattern zdn) →
    encodeOperands zdn.toNat pattern (imm4.toNat + 1) = w) ∧
  encodeOperands 0 0b11111#5 1 = 0x04E0CBE0#32 ∧ encodeOperands 0 0b00000#5 1 = 0x04E0C800#32 ∧
  encodeOperands 0 0b11111#5 16 = 0x04EFCBE0#32 ∧ encodeOperands 31 0b00011#5 5 = 0x04E4C87F#32

/-- An encoding with any one fixed bit inverted is refused by name (95_test_vectors.md T1, T6). -/
def Obligations.InvertedFixedBitIsRefused : Prop :=
  ∀ (i : Instr) (k : Nat), (20 ≤ k ∧ k ≤ 31) ∨ (10 ≤ k ∧ k ≤ 15) →
    decode (encode i ^^^ (1#32 <<< k)) = .notInSpec (encode i ^^^ (1#32 <<< k))

/-- R74: setting one field of an encoding to any value leaves an encoding whose other two fields are as before. -/
def Obligations.FieldsAreIndependent : Prop :=
  ∀ w : Word, isSqdecd w = true →
    (∀ x : BitVec 4, decode ((w &&& ~~~0x000F0000#32) ||| (x.setWidth 32 <<< 16)) =
      .instr (.sqdecdVector x (fieldPattern w) (fieldZdn w))) ∧
    (∀ x : BitVec 5, decode ((w &&& ~~~0x000003E0#32) ||| (x.setWidth 32 <<< 5)) =
      .instr (.sqdecdVector (fieldImm4 w) x (fieldZdn w))) ∧
    (∀ x : BitVec 5, decode ((w &&& ~~~0x0000001F#32) ||| x.setWidth 32) =
      .instr (.sqdecdVector (fieldImm4 w) (fieldPattern w) x))

/-! ### Pseudocode primitives -/

/-- R14: `SatQ` for both values of `unsigned`, with the two encodings the rule gives for 64 bits. -/
def Obligations.SaturationClampsToRange : Prop :=
  (∀ (i : Int) (n : Nat), 1 ≤ n →
    ((2 ^ (n - 1) - 1 < i → (satQ i n false).1.toInt = 2 ^ (n - 1) - 1 ∧ (satQ i n false).2 = true) ∧
     (i < -(2 ^ (n - 1)) → (satQ i n false).1.toInt = -(2 ^ (n - 1)) ∧ (satQ i n false).2 = true) ∧
     (-(2 ^ (n - 1)) ≤ i → i ≤ 2 ^ (n - 1) - 1 → (satQ i n false).1.toInt = i ∧
       ((satQ i n false).1.toNat : Int) = i % 2 ^ n ∧ (satQ i n false).2 = false)) ∧
    ((2 ^ n - 1 < i → ((satQ i n true).1.toNat : Int) = 2 ^ n - 1 ∧ (satQ i n true).2 = true) ∧
     (i < 0 → (satQ i n true).1.toNat = 0 ∧ (satQ i n true).2 = true) ∧
     (0 ≤ i → i ≤ 2 ^ n - 1 → ((satQ i n true).1.toNat : Int) = i ∧ (satQ i n true).2 = false))) ∧
  (∀ i : Int, i < -9223372036854775808 → (satQ i 64 false).1 = 0x8000000000000000#64) ∧
  (∀ i : Int, 9223372036854775807 < i → (satQ i 64 false).1 = 0x7FFFFFFFFFFFFFFF#64)

/-- R13: reading an element reads its slice; writing one replaces exactly its bits; element 0 is the least significant. -/
def Obligations.ElementAccessIsASlice : Prop :=
  ∀ (n size e : Nat) (v : BitVec n) (x : BitVec size), 0 < size → (e + 1) * size ≤ n →
    (∀ k, k < size → (elemGet v e size).getLsbD k = v.getLsbD (e * size + k)) ∧
    (∀ k, k < size → (elemSet v e size x).getLsbD (e * size + k) = x.getLsbD k) ∧
    (∀ k, k < e * size ∨ (e + 1) * size ≤ k → (elemSet v e size x).getLsbD k = v.getLsbD k) ∧
    elemGet (elemSet v e size x) e size = x ∧
    elemGet v 0 size = v.setWidth size

/-- R81: `FloorPow2(x)` is the unique `2^k` with `2^k ≤ x < 2^(k+1)`, and its values at the sixteen element counts. -/
def Obligations.FloorPow2IsTheLargestPower : Prop :=
  (∀ x : Nat, 1 ≤ x → ∃ k, floorPow2 x = 2 ^ k ∧ 2 ^ k ≤ x ∧ x < 2 ^ (k + 1) ∧
    ∀ j, 2 ^ j ≤ x → x < 2 ^ (j + 1) → 2 ^ j = floorPow2 x) ∧
  [2, 4, 6, 8, 10, 12, 14, 16, 18, 20, 22, 24, 26, 28, 30, 32].map floorPow2 =
    [2, 4, 4, 8, 8, 8, 8, 16, 16, 16, 16, 16, 16, 16, 16, 32]

/-- R80: every arm of `DecodePredCount`, with `POW2`, `MUL4` and `MUL3` said as the largest that fits, and the bound. -/
def Obligations.PredicateCountArms : Prop :=
  ∀ vl esz : Nat, 0 < vl → 0 < esz → vl % esz = 0 →
    (∃ k, decodePredCount vl 0b00000#5 esz = 2 ^ k ∧ 2 ^ k ≤ vl / esz ∧ vl / esz < 2 ^ (k + 1)) ∧
    (∀ pn ∈ [(0b00001#5, 1), (0b00010#5, 2), (0b00011#5, 3), (0b00100#5, 4), (0b00101#5, 5), (0b00110#5, 6),
        (0b00111#5, 7), (0b01000#5, 8), (0b01001#5, 16), (0b01010#5, 32), (0b01011#5, 64), (0b01100#5, 128),
        (0b01101#5, 256)],
      decodePredCount vl pn.1 esz = if vl / esz ≥ pn.2 then pn.2 else 0) ∧
    (decodePredCount vl 0b11101#5 esz = vl / esz - (vl / esz) % 4 ∧ decodePredCount vl 0b11101#5 esz % 4 = 0 ∧
      ∀ m, m % 4 = 0 → m ≤ vl / esz → m ≤ decodePredCount vl 0b11101#5 esz) ∧
    (decodePredCount vl 0b11110#5 esz = vl / esz - (vl / esz) % 3 ∧ decodePredCount vl 0b11110#5 esz % 3 = 0 ∧
      ∀ m, m % 3 = 0 → m ≤ vl / esz → m ≤ decodePredCount vl 0b11110#5 esz) ∧
    decodePredCount vl 0b11111#5 esz = vl / esz ∧
    (∀ p : BitVec 5, 14 ≤ p.toNat → p.toNat ≤ 28 → decodePredCount vl p esz = 0) ∧
    (∀ p : BitVec 5, decodePredCount vl p esz ≤ vl / esz)

/-- The count table of R82: for each legal length, the number of elements and the counts of the seventeen named patterns. -/
def Sys2Proof.Certificates.countTable : List (Nat × Nat × List Nat) :=
  [(128, 2, [2, 1, 2, 0, 0, 0, 0, 0, 0, 0, 0, 0, 0, 0, 0, 0, 2]),
   (256, 4, [4, 1, 2, 3, 4, 0, 0, 0, 0, 0, 0, 0, 0, 0, 4, 3, 4]),
   (384, 6, [4, 1, 2, 3, 4, 5, 6, 0, 0, 0, 0, 0, 0, 0, 4, 6, 6]),
   (512, 8, [8, 1, 2, 3, 4, 5, 6, 7, 8, 0, 0, 0, 0, 0, 8, 6, 8]),
   (640, 10, [8, 1, 2, 3, 4, 5, 6, 7, 8, 0, 0, 0, 0, 0, 8, 9, 10]),
   (768, 12, [8, 1, 2, 3, 4, 5, 6, 7, 8, 0, 0, 0, 0, 0, 12, 12, 12]),
   (896, 14, [8, 1, 2, 3, 4, 5, 6, 7, 8, 0, 0, 0, 0, 0, 12, 12, 14]),
   (1024, 16, [16, 1, 2, 3, 4, 5, 6, 7, 8, 16, 0, 0, 0, 0, 16, 15, 16]),
   (1152, 18, [16, 1, 2, 3, 4, 5, 6, 7, 8, 16, 0, 0, 0, 0, 16, 18, 18]),
   (1280, 20, [16, 1, 2, 3, 4, 5, 6, 7, 8, 16, 0, 0, 0, 0, 20, 18, 20]),
   (1408, 22, [16, 1, 2, 3, 4, 5, 6, 7, 8, 16, 0, 0, 0, 0, 20, 21, 22]),
   (1536, 24, [16, 1, 2, 3, 4, 5, 6, 7, 8, 16, 0, 0, 0, 0, 24, 24, 24]),
   (1664, 26, [16, 1, 2, 3, 4, 5, 6, 7, 8, 16, 0, 0, 0, 0, 24, 24, 26]),
   (1792, 28, [16, 1, 2, 3, 4, 5, 6, 7, 8, 16, 0, 0, 0, 0, 28, 27, 28]),
   (1920, 30, [16, 1, 2, 3, 4, 5, 6, 7, 8, 16, 0, 0, 0, 0, 28, 30, 30]),
   (2048, 32, [32, 1, 2, 3, 4, 5, 6, 7, 8, 16, 32, 0, 0, 0, 32, 30, 32])]

/-- R82: the table cell for cell at every legal length, and 0 for every unnamed pattern. -/
def Obligations.CountTableOfLegalLengths : Prop :=
  ∀ v : VecLen,
    Sys2Proof.Certificates.countTable[v.quads.val]? =
      some (v.bits, v.elements,
        ([0, 1, 2, 3, 4, 5, 6, 7, 8, 9, 10, 11, 12, 13, 29, 30, 31] : List (BitVec 5)).map
          (fun p => decodePredCount v.bits p 64)) ∧
    ∀ p : BitVec 5, 14 ≤ p.toNat → p.toNat ≤ 28 → decodePredCount v.bits p 64 = 0

/-! ### The instruction -/

/-- R83: where SVE is implemented and enabled, `SQDECD (vector)` completes: every element of `Z[dn]` is `SatQ` of its old value
less `count * imm`, `pc` advances by 4, and every other register, every parameter and every byte of memory is as before. -/
def Obligations.SqdecdCompletesWithDecrementedElements : Prop :=
  ∀ (s : State) (imm4 : BitVec 4) (pattern zdn : BitVec 5), s.sveReady →
    ∃ t, exec (.sqdecdVector imm4 pattern zdn) s = .next t ∧
      (∀ e, e < s.par.vl.elements →
        t.lane (regNumber zdn) e =
          (satQ ((s.lane (regNumber zdn) e).toInt -
            (decodePredCount s.par.vl.bits pattern 64 * (imm4.toNat + 1) : Nat)) 64 false).1) ∧
      t.pc = s.pc + 4 ∧
      (∀ m, m ≠ regNumber zdn → (t.readZ m).toNat = (s.readZ m).toNat) ∧
      t.par = s.par ∧
      ∀ a, Memory.read t.memory a = Memory.read s.memory a

/-- R31, R26, R40: the frame. Whenever `SQDECD (vector)` answers a next state, every register but `Z[dn]` keeps all its bits,
the parameters are as before, and every address of memory reads as before. -/
def Obligations.SqdecdChangesOnlyItsRegisterAndPc : Prop :=
  ∀ (s t : State) (imm4 : BitVec 4) (pattern zdn : BitVec 5), exec (.sqdecdVector imm4 pattern zdn) s = .next t →
    (∀ m, m ≠ regNumber zdn → (t.readZ m).toNat = (s.readZ m).toNat) ∧
    t.par = s.par ∧ ∀ a, Memory.read t.memory a = Memory.read s.memory a

/-- R84: the closed form of one element and its bit-vector form. -/
def Obligations.ClosedFormOfOneElement : Prop :=
  ∀ (s : State) (imm4 : BitVec 4) (pattern zdn : BitVec 5), s.sveReady →
    ∃ t, exec (.sqdecdVector imm4 pattern zdn) s = .next t ∧
      ∀ e, e < s.par.vl.elements →
        (t.lane (regNumber zdn) e).toInt =
          max (-(2 ^ 63)) ((s.lane (regNumber zdn) e).toInt - (decrement s.par.vl pattern imm4 : Int)) ∧
        (-(2 ^ 63) ≤ (s.lane (regNumber zdn) e).toInt - (decrement s.par.vl pattern imm4 : Int) →
          t.lane (regNumber zdn) e =
            s.lane (regNumber zdn) e - BitVec.ofNat 64 (decrement s.par.vl pattern imm4)) ∧
        ((s.lane (regNumber zdn) e).toInt - (decrement s.par.vl pattern imm4 : Int) < -(2 ^ 63) →
          t.lane (regNumber zdn) e = 0x8000000000000000#64) ∧
        ((s.lane (regNumber zdn) e).toInt - (decrement s.par.vl pattern imm4 : Int) < -(2 ^ 63) ↔
          (s.lane (regNumber zdn) e).toInt < -(2 ^ 63) + (decrement s.par.vl pattern imm4 : Int))

/-- R85: no element is ever clamped at the top; a greatest element comes only from a greatest element and a zero decrement. -/
def Obligations.SaturationIsOneSided : Prop :=
  ∀ (s : State) (imm4 : BitVec 4) (pattern zdn : BitVec 5), s.sveReady →
    ∃ t, exec (.sqdecdVector imm4 pattern zdn) s = .next t ∧
      ∀ e, e < s.par.vl.elements →
        (s.lane (regNumber zdn) e).toInt - (decrement s.par.vl pattern imm4 : Int) ≤ 2 ^ 63 - 1 ∧
        (t.lane (regNumber zdn) e = 0x7FFFFFFFFFFFFFFF#64 ↔
          s.lane (regNumber zdn) e = 0x7FFFFFFFFFFFFFFF#64 ∧ decrement s.par.vl pattern imm4 = 0)

/-- R86: the least value is a fixed point, and no element ever grows. -/
def Obligations.LeastElementIsFixedAndDecrementIsMonotone : Prop :=
  ∀ (s : State) (imm4 : BitVec 4) (pattern zdn : BitVec 5), s.sveReady →
    ∃ t, exec (.sqdecdVector imm4 pattern zdn) s = .next t ∧
      ∀ e, e < s.par.vl.elements →
        (s.lane (regNumber zdn) e = 0x8000000000000000#64 → t.lane (regNumber zdn) e = 0x8000000000000000#64) ∧
        (t.lane (regNumber zdn) e).toInt ≤ (s.lane (regNumber zdn) e).toInt

/-- R87: a zero count leaves every register as it was, and `pc` still advances. -/
def Obligations.ZeroCountKeepsTheRegister : Prop :=
  ∀ (s : State) (imm4 : BitVec 4) (pattern zdn : BitVec 5), s.sveReady →
    decodePredCount s.par.vl.bits pattern 64 = 0 →
    exec (.sqdecdVector imm4 pattern zdn) s = .next s.advancePc

/-- R87, R63: when the count is zero: exactly the unnamed patterns, the fixed counts above the number of elements, and `MUL4`
and `MUL3` at 128 bits. -/
def Obligations.WhenTheCountIsZero : Prop :=
  ∀ (v : VecLen) (p : BitVec 5),
    decodePredCount v.bits p 64 = 0 ↔
      (14 ≤ p.toNat ∧ p.toNat ≤ 28) ∨
      (1 ≤ p.toNat ∧ p.toNat ≤ 8 ∧ v.elements < p.toNat) ∨
      (9 ≤ p.toNat ∧ p.toNat ≤ 13 ∧ v.elements < 2 ^ (p.toNat - 5)) ∨
      ((p = 0b11101#5 ∨ p = 0b11110#5) ∧ v.bits = 128)

/-- R88: the range of the decrement, and where its greatest value is reached. -/
def Obligations.DecrementIsAtMost512 : Prop :=
  ∀ (v : VecLen) (p : BitVec 5) (imm4 : BitVec 4),
    decrement v p imm4 ≤ v.elements * 16 ∧ v.elements * 16 ≤ 512 ∧
    (decrement v p imm4 = 512 ↔
      v.bits = 2048 ∧ imm4 = 0b1111#4 ∧ (p = 0b00000#5 ∨ p = 0b01010#5 ∨ p = 0b11101#5 ∨ p = 0b11111#5))

/-- R93, R23: a new element depends on the old element alone, the same way in every lane, whatever the other registers, the
program counter and the program are. -/
def Obligations.ElementsAreIndependent : Prop :=
  ∀ (s1 s2 t1 t2 : State) (imm4 : BitVec 4) (pattern z1 z2 : BitVec 5) (e1 e2 : Nat),
    s1.par.vl = s2.par.vl → e1 < s1.par.vl.elements → e2 < s2.par.vl.elements →
    s1.lane (regNumber z1) e1 = s2.lane (regNumber z2) e2 →
    exec (.sqdecdVector imm4 pattern z1) s1 = .next t1 → exec (.sqdecdVector imm4 pattern z2) s2 = .next t2 →
    t1.lane (regNumber z1) e1 = t2.lane (regNumber z2) e2

/-- R94: any sequence on one register is a single saturating decrement by the sum of the decrements. -/
def Obligations.SequenceIsOneDecrement : Prop :=
  ∀ (zdn : BitVec 5) (l : List (BitVec 4 × BitVec 5)) (s : State), s.sveReady →
    ∃ t, execAll (l.map (fun p => .sqdecdVector p.1 p.2 zdn)) s = .next t ∧
      (∀ e, e < s.par.vl.elements →
        (t.lane (regNumber zdn) e).toInt =
          max (-(2 ^ 63)) ((s.lane (regNumber zdn) e).toInt -
            ((l.map (fun p => decrement s.par.vl p.2 p.1)).sum : Nat))) ∧
      (∀ m, m ≠ regNumber zdn → (t.readZ m).toNat = (s.readZ m).toNat) ∧
      t.pc = s.pc + BitVec.ofNat 64 (4 * l.length) ∧ t.par = s.par

/-- R95: two instructions commute, and what a sequence does depends only on the multiset of its (register, decrement) pairs. -/
def Obligations.OrderOfDecrementsDoesNotMatter : Prop :=
  (∀ (i j : Instr) (s : State), execAll [i, j] s = execAll [j, i] s) ∧
  ∀ (l1 l2 : List Instr) (s : State),
    (l1.map (decrementOf s.par.vl)).Perm (l2.map (decrementOf s.par.vl)) → execAll l1 s = execAll l2 s

/-- R40, R50: `SQDECD (vector)` makes no memory access: with another program at another place it does the same. -/
def Obligations.SqdecdDoesNotReadMemory : Prop :=
  ∀ (s : State) (imm4 : BitVec 4) (pattern zdn : BitVec 5) (prog : List Word) (base : Addr),
    exec (.sqdecdVector imm4 pattern zdn) (s.withProgram prog base) =
      match exec (.sqdecdVector imm4 pattern zdn) s with
      | .next t => .next (t.withProgram prog base)
      | .fault r => .fault r
      | .refused r => .refused r

/-! ### Exceptions -/

/-- R114: the order of the two checks, each exception exactly where the rule has it, whatever the registers hold. -/
def Obligations.ExceptionPriority : Prop :=
  ∀ (s : State) (imm4 : BitVec 4) (pattern zdn : BitVec 5),
    (exec (.sqdecdVector imm4 pattern zdn) s = .fault (.exception .undefinedInstruction) ↔ s.par.haveSve = false) ∧
    (exec (.sqdecdVector imm4 pattern zdn) s = .fault (.exception .sveAccessTrap) ↔
      s.par.haveSve = true ∧ s.par.sveAccess = .trapped)

/-- R110, R126: a step on a matching word ends in exactly one of three ways, decided by the two parameters alone. -/
def Obligations.OutcomeOfAMatchingWord : Prop :=
  ∀ (s : State) (w : Word), s.fetch = .word w → w &&& 0xFFF0FC00#32 = 0x04E0C800#32 →
    (s.par.haveSve = false → step s = .fault (.exception .undefinedInstruction)) ∧
    (s.par.haveSve = true → s.par.sveAccess = .trapped → step s = .fault (.exception .sveAccessTrap)) ∧
    (s.par.haveSve = true → s.par.sveAccess = .enabled →
      ∃ t, step s = .next t ∧ t.pc = s.pc + 4 ∧
        ∀ e, e < s.par.vl.elements →
          (t.lane (regNumber (w.extractLsb' 0 5)) e).toInt =
            max (-(2 ^ 63)) ((s.lane (regNumber (w.extractLsb' 0 5)) e).toInt -
              (decodePredCount s.par.vl.bits (w.extractLsb' 5 5) 64 * ((w.extractLsb' 16 4).toNat + 1) : Nat)))

/-! ### Fetch, step and run -/

/-- R42: word `i` of the program stands in memory as its four bytes, least significant first, from `base + 4 * i` on; the bytes
of `SQDECD Z0.D`. -/
def Obligations.InstructionBytesAreLittleEndian : Prop :=
  (∀ (s : State) (i : Nat) (w : Word), s.par.prog[i]? = some w →
    Memory.read s.memory (s.par.base.toNat + 4 * i) = some (w.extractLsb' 0 8) ∧
    Memory.read s.memory (s.par.base.toNat + 4 * i + 1) = some (w.extractLsb' 8 8) ∧
    Memory.read s.memory (s.par.base.toNat + 4 * i + 2) = some (w.extractLsb' 16 8) ∧
    Memory.read s.memory (s.par.base.toNat + 4 * i + 3) = some (w.extractLsb' 24 8)) ∧
  bytesOfWord 0x04E0CBE0#32 = [0xE0#8, 0xCB#8, 0xE0#8, 0x04#8]

/-- R45: an address reads as a byte if and only if it is in the program text. The clause `Memory.wf` (the canonical form,
addresses strictly rising) is no rule of the spec: the list of cells and its form are the model's own choice (log 6). -/
def Obligations.OnlyTheProgramTextExists : Prop :=
  ∀ (s : State), Memory.wf s.memory = true ∧
    ∀ a, (Memory.read s.memory a ≠ none ↔
      s.par.base.toNat ≤ a ∧ a < s.par.base.toNat + 4 * s.par.prog.length)

/-- R41: at `base + 4 * i` the fetch gives word `i` of the program. -/
def Obligations.FetchReadsTheProgram : Prop :=
  ∀ (s : State) (i : Nat) (w : Word), s.par.legal = true → s.par.prog[i]? = some w →
    s.pc = s.par.base + BitVec.ofNat 64 (4 * i) →
    s.fetch = .word w ∧ Memory.readWord s.memory s.pc.toNat = some w

/-- When the program stands legally (R8, R133) and the four bytes at a word-aligned `pc` decode to an instruction, the step is
that instruction's execution; the step adds nothing around it. -/
def Obligations.StepRunsTheDecodedInstruction : Prop :=
  ∀ (s : State) (i : Instr) (b0 b1 b2 b3 : Byte), s.par.legal = true → s.pcOffset % 4 = 0 →
    Memory.read s.memory s.pc.toNat = some b0 → Memory.read s.memory (s.pc.toNat + 1) = some b1 →
    Memory.read s.memory (s.pc.toNat + 2) = some b2 → Memory.read s.memory (s.pc.toNat + 3) = some b3 →
    decodeBytes [b0, b1, b2, b3] = .ok (i, []) → step s = exec i s

/-- R132: a step completes if and only if (a) SVE is implemented, (b) SVE is enabled, and (d) the program stands at a 4-byte
aligned `base` below the top of the address space (R8, R133) with an encoding of SQDECD (vector) as its word at `pc` (R62). The
vector length is a legal one in every state (c). -/
def Obligations.StepCompletesExactlyOnAReadyMatchingWord : Prop :=
  ∀ s : State,
    ((∃ t, step s = .next t) ↔
      s.par.haveSve = true ∧ s.par.sveAccess = .enabled ∧
      s.par.base.toNat % 4 = 0 ∧ s.par.base.toNat + 4 * s.par.prog.length ≤ 2 ^ 64 ∧
      ∃ i w, s.par.prog[i]? = some w ∧ s.pc = s.par.base + BitVec.ofNat 64 (4 * i) ∧
        w &&& 0xFFF0FC00#32 = 0x04E0C800#32) ∧
    VecLen.ofBits s.par.vl.bits = .ok s.par.vl

/-- R8, R43, R132 (d): where `base` is not a multiple of 4, or the program runs past the top of the address space, or `pc` is not
a multiple of 4, the spec gives no behaviour; that the model then stops under the name `noInstructionAtPc` is the model's choice
(log 8). -/
def Obligations.MisplacedProgramIsNeverFetched : Prop :=
  (∀ s : State, s.par.legal = false → s.fetch = .nothing ∧ step s = .fault .noInstructionAtPc) ∧
  ∀ s : State, s.pc.toNat % 4 ≠ 0 → s.fetch = .nothing ∧ step s = .fault .noInstructionAtPc

/-- R125, in the spec's own four outcomes (R18): each reason of the two closed types, exactly where the rule has it raised; the
types have no other reason; and a step that faults or refuses does not stand in a final state. -/
def Obligations.ReasonsOfFaultAndRefusal : Prop :=
  (∀ s : State,
    (specStep s = some (.fault .undefinedInstruction) ↔
      s.par.haveSve = false ∧ ∃ w, s.fetch = .word w ∧ w &&& 0xFFF0FC00#32 = 0x04E0C800#32) ∧
    (specStep s = some (.fault .sveAccessTrap) ↔
      s.par.haveSve = true ∧ s.par.sveAccess = .trapped ∧
        ∃ w, s.fetch = .word w ∧ w &&& 0xFFF0FC00#32 = 0x04E0C800#32) ∧
    ∀ w, specStep s = some (.refused (.notInSpec w)) ↔ s.fetch = .word w ∧ w &&& 0xFFF0FC00#32 ≠ 0x04E0C800#32) ∧
  (∀ r : FaultReason, r = .undefinedInstruction ∨ r = .sveAccessTrap) ∧
  (∀ r : RefusalReason, ∃ w, r = .notInSpec w) ∧
  ∀ s : State, 4 * s.par.prog.length < 2 ^ 64 →
    ((∃ r, specStep s = some (.fault r)) ∨ ∃ r, specStep s = some (.refused r)) → ¬ s.isFinal

/-- R18, R133: in a state that meets the invariant a step has one of R18's four outcomes, and it is `Final`, which is neither a
fault nor a refusal, exactly where the state is final. -/
def Obligations.StepHasOneOfFourOutcomes : Prop :=
  ∀ s : State, s.Inv → 4 * s.par.prog.length < 2 ^ 64 →
    ∃ o, specStep s = some o ∧ (o = .final ↔ s.isFinal)

/-- R18, R125: in a state that meets the invariant a step has one of R18's outcomes and no other; `Final` is carried by the
fault reason `endOfProgram` (log 7: the model's). -/
def Obligations.StepHasOneOfTheSpecOutcomes : Prop :=
  ∀ s : State, s.Inv → 4 * s.par.prog.length < 2 ^ 64 →
    (∃ t, step s = .next t) ∨ step s = .fault (.exception .undefinedInstruction) ∨ step s = .fault (.exception .sveAccessTrap) ∨
    (∃ w, s.fetch = .word w ∧ w &&& 0xFFF0FC00#32 ≠ 0x04E0C800#32 ∧ step s = .refused (.unspecified (.notInSpec w))) ∨
    (s.isFinal ∧ step s = .fault .endOfProgram)

/-- R133 as the model carries it (logs 7, 8 and 10: the reason names are the model's): in a state that meets the invariant a
step answers `endOfProgram` exactly at the end, and never finds nothing at `pc`. -/
def Obligations.RunEndsOneWordPastTheProgram : Prop :=
  ∀ s : State, s.Inv → 4 * s.par.prog.length < 2 ^ 64 →
    (step s = .fault .endOfProgram ↔ s.isFinal) ∧ step s ≠ .fault .noInstructionAtPc

/-- R133, R89: every completed step advances `pc` by 4 and stays within the program, so that a run of a program of `n` words
completes at most `n` steps. -/
def Obligations.RunsAreBoundedByTheProgram : Prop :=
  ∀ (s t : State) (k : Nat), s.Inv → 4 * s.par.prog.length < 2 ^ 64 → Sys2Proof.core.run k s = .next t →
    t.pc = s.pc + BitVec.ofNat 64 (4 * k) ∧ s.pcOffset + 4 * k ≤ 4 * s.par.prog.length ∧ t.par = s.par

/-- R25, R41: the invariant of a run is kept by every step. -/
def Obligations.EveryStepKeepsTheInvariant : Prop :=
  ∀ s t : State, s.Inv → step s = .next t → t.Inv

/-- R33, R34: every start state with a legal place for its program meets the invariant and has `pc = base`, whatever its
registers hold; so does the reset state, whose place for the program is the model's choice (log 5). -/
def Obligations.StartStatesMeetTheInvariant : Prop :=
  (∀ (par : Params) (z : Vector (BitVec par.vl.bits) 32), par.legal = true →
    (State.start par z).Inv ∧ (State.start par z).pc = par.base) ∧
  State.reset.Inv ∧ State.reset.pc = State.reset.par.base

/-- R25, R43: in a state that meets the invariant `pc` is a multiple of 4. -/
def Obligations.ProgramCounterIsAligned : Prop :=
  ∀ s : State, s.Inv → s.pc.toNat % 4 = 0

/-- R20, R25, R31, R89: whatever instruction a step runs, it changes no parameter and no byte of memory, at most one vector
register, and advances `pc` by 4. -/
def Obligations.EveryStepChangesAtMostOneRegister : Prop :=
  ∀ s t : State, step s = .next t →
    t.par = s.par ∧ t.pc = s.pc + 4 ∧ (∀ a, Memory.read t.memory a = Memory.read s.memory a) ∧
    ∃ d : Fin 32, ∀ m, m ≠ d → (t.readZ m).toNat = (s.readZ m).toNat

/-- The placing of a word (log 5: it stands for loading the program from outside): the next step runs exactly that word, and
the registers and the other parameters are as before, and so is `pc` wherever it is a multiple of 4. -/
def Obligations.PlacedWordRunsNext : Prop :=
  ∀ (s : State) (w : Word),
    (s.withFetchWord 32 w.toNat).fetch = .word w ∧
    step (s.withFetchWord 32 w.toNat) =
      (match decode w with
        | .instr i => exec i (s.withFetchWord 32 w.toNat)
        | .notInSpec v => .refused (.unspecified (.notInSpec v))) ∧
    (s.pc.toNat % 4 = 0 → (s.withFetchWord 32 w.toNat).pc = s.pc) ∧
    (s.withFetchWord 32 w.toNat).par.legal = true ∧
    (s.withFetchWord 32 w.toNat).par.vl = s.par.vl ∧
    (s.withFetchWord 32 w.toNat).par.haveSve = s.par.haveSve ∧
    (s.withFetchWord 32 w.toNat).par.sveAccess = s.par.sveAccess ∧
    ∀ m, ((s.withFetchWord 32 w.toNat).readZ m).toNat = (s.readZ m).toNat

/-! ### Assembler and disassembler -/

/-- R59, R69: the seventeen names and the fifteen unnamed values, each printed as the table has it and read back as itself. -/
def Obligations.PatternTable : Prop :=
  ([0, 1, 2, 3, 4, 5, 6, 7, 8, 9, 10, 11, 12, 13, 29, 30, 31] : List (BitVec 5)).map (fun p => patternText (patternSymbol p)) =
    ["POW2", "VL1", "VL2", "VL3", "VL4", "VL5", "VL6", "VL7", "VL8", "VL16", "VL32", "VL64", "VL128", "VL256",
      "MUL4", "MUL3", "ALL"].map String.toList ∧
  (∀ p : BitVec 5, 14 ≤ p.toNat → p.toNat ≤ 28 → patternSymbol p = .uimm5 p.toNat) ∧
  (∀ p : BitVec 5, patternCode (patternSymbol p) = p) ∧
  (∀ n, n ≤ 31 → patternCode (.uimm5 n) = BitVec.ofNat 5 n)

/-- R68: the defaults, the three spellings of one word, and the multipliers that cannot be encoded. -/
def Obligations.OmittedOperandsHaveDefaults : Prop :=
  (∀ r, r ≤ 31 → ∃ w, assemble ⟨r, 'D', none, none⟩ = .ok w ∧ assemble ⟨r, 'D', some .all, none⟩ = .ok w ∧
    assemble ⟨r, 'D', some .all, some 1⟩ = .ok w ∧
    decode w = .instr (.sqdecdVector 0b0000#4 0b11111#5 (BitVec.ofNat 5 r))) ∧
  (∀ r p, r ≤ 31 → p.inRange = true → ∃ w, assemble ⟨r, 'D', some p, none⟩ = .ok w ∧
    decode w = .instr (.sqdecdVector 0b0000#4 (patternCode p) (BitVec.ofNat 5 r))) ∧
  assemble ⟨3, 'D', none, none⟩ = .ok 0x04E0CBE3#32 ∧
  ∀ r s p k w, k = 0 ∨ 17 ≤ k → assemble ⟨r, s, p, some k⟩ ≠ .ok w

/-- From R73: exactly the well-formed written instructions assemble, each refusal has its name, and so has an illegal length.
Which fault is named where a written instruction has several is no rule of the spec but the model's own choice (log 17): the
clauses for the register, the suffix and the pattern immediate hold whatever else is wrong with the line. -/
def Obligations.IllFormedInputIsRefusedByName : Prop :=
  (∀ l : AsmLine, (∃ w, assemble l = .ok w) ↔
    l.reg ≤ 31 ∧ l.suffix = 'D' ∧ (∀ n, l.pattern = some (.uimm5 n) → n ≤ 31) ∧
    (l.pattern = none → l.mul = none) ∧ (∀ k, l.mul = some k → 1 ≤ k ∧ k ≤ 16)) ∧
  (∀ r p k, r ≤ 31 → p.inRange = true → (k = 0 ∨ 17 ≤ k) → assemble ⟨r, 'D', some p, some k⟩ = .error .multiplier) ∧
  (∀ r s p m, 32 ≤ r → assemble ⟨r, s, p, m⟩ = .error .register) ∧
  (∀ r n m, r ≤ 31 → 32 ≤ n → assemble ⟨r, 'D', some (.uimm5 n), m⟩ = .error .patternImmediate) ∧
  (∀ r s p m, r ≤ 31 → s ≠ 'D' → assemble ⟨r, s, p, m⟩ = .error .suffix) ∧
  (∀ r k, r ≤ 31 → assemble ⟨r, 'D', none, some k⟩ = .error .multiplierWithoutPattern) ∧
  (∀ n, (∃ v, VecLen.ofBits n = .ok v ∧ v.bits = n) ↔ n % 128 = 0 ∧ 128 ≤ n ∧ n ≤ 2048) ∧
  (∀ n, ¬(n % 128 = 0 ∧ 128 ≤ n ∧ n ≤ 2048) → VecLen.ofBits n = .error .vectorLength)

/-- R71: the text printed for each instruction, the shortest spelling the template allows. -/
def Obligations.CanonicalSpelling : Prop :=
  ∀ (imm4 : BitVec 4) (pattern zdn : BitVec 5),
    (imm4 ≠ 0b0000#4 → disassembleText (encode (.sqdecdVector imm4 pattern zdn)) =
      some ("SQDECD Z".toList ++ decimal zdn.toNat ++ ".D, ".toList ++ patternText (patternSymbol pattern) ++
        ", MUL #".toList ++ decimal (imm4.toNat + 1))) ∧
    (imm4 = 0b0000#4 → pattern ≠ 0b11111#5 → disassembleText (encode (.sqdecdVector imm4 pattern zdn)) =
      some ("SQDECD Z".toList ++ decimal zdn.toNat ++ ".D, ".toList ++ patternText (patternSymbol pattern))) ∧
    (imm4 = 0b0000#4 → pattern = 0b11111#5 → disassembleText (encode (.sqdecdVector imm4 pattern zdn)) =
      some ("SQDECD Z".toList ++ decimal zdn.toNat ++ ".D".toList))

/-- R71, R72, T7: the canonical text of every encoding assembles to that encoding. -/
def Obligations.DisassembledTextAssembles : Prop :=
  ∀ w : Word, isSqdecd w = true →
    ∃ text, disassembleText w = some text ∧ assembleText text = .ok w
end

