-- ==== Sys2Proof/Laws/Assembler.lean ====
section
/-! SUPPORT. What the reading of a text gives on the text that was written. -/

namespace Sys2Proof.Machine

/-- A fixed piece of text is read off the front of a text that starts with it. -/
theorem dropText_append (p t : List Char) : dropText p (p ++ t) = some t := by
  induction p with
  | nil => rfl
  | cons c p ih => simp [dropText, ih]

/-- Digits are read up to the first character that is none. -/
theorem spanDigits_append (ds t : List Char) (h1 : ∀ c ∈ ds, c.isDigit = true) (h2 : ∀ c ∈ t.head?, c.isDigit = false) :
    spanDigits (ds ++ t) = (ds, t) := by
  induction ds with
  | nil =>
    cases t with
    | nil => rfl
    | cons c t => simp [spanDigits, h2 c (by simp)]
  | cons d ds ih => simp [spanDigits, h1 d (by simp), ih (fun c hc => h1 c (by simp [hc]))]

/-- A register number, a multiplier or a pattern immediate reads back as it was written. -/
theorem takeNumber_decimal (n : Nat) (hn : n ≤ 32) (t : List Char) (ht : ∀ c ∈ t.head?, c.isDigit = false) :
    takeNumber (decimal n ++ t) = some (n, t) := by
  have hd : ∀ n, n ≤ 32 → (decimal n).all Char.isDigit = true := by decide
  have hv : ∀ n, n ≤ 32 → (decimal n).foldl (fun acc c => 10 * acc + (c.toNat - '0'.toNat)) 0 = n := by decide
  unfold takeNumber
  rw [spanDigits_append _ _ (fun c hc => List.all_eq_true.mp (hd n hn) c hc) ht]
  simp only [hv n hn, if_true]

/-- A pattern symbol is one that a written instruction may have, and encodes the value it stands for (R59). -/
theorem patternCode_patternSymbol (pat : BitVec 5) :
    patternCode (patternSymbol pat) = pat ∧ (patternSymbol pat).inRange = true := by
  revert pat; decide

end Sys2Proof.Machine
end

