-- ==== Sys2Proof/Laws/Decode.lean ====
section
/-! SUPPORT. What the decoder and the byte layout of a word give. -/

namespace Sys2Proof

theorem decode_of_match {w : Word} (h : isSqdecd w = true) :
    decode w = .instr (.sqdecdVector (fieldImm4 w) (fieldPattern w) (fieldZdn w)) := by
  simp [decode, h]

theorem decode_of_not_match {w : Word} (h : isSqdecd w = false) : decode w = .notInSpec w := by
  simp [decode, h]

/-- The word of an instruction, each field in its own bits (R56). -/
theorem encode_eq (imm4 : BitVec 4) (pattern zdn : BitVec 5) :
    encode (.sqdecdVector imm4 pattern zdn) =
      sqdecdMatch ||| (imm4.setWidth 32 <<< 16) ||| (pattern.setWidth 32 <<< 5) ||| zdn.setWidth 32 := by
  have h1 : BitVec.ofNat 32 (imm4.toNat + 1 - 1) = imm4.setWidth 32 := by simp
  have h2 : BitVec.ofNat 32 zdn.toNat = zdn.setWidth 32 := by rw [BitVec.ofNat_toNat]
  show encodeOperands zdn.toNat pattern (imm4.toNat + 1) = _
  unfold encodeOperands
  rw [h1, h2]

/-- The four bytes of a word make the word again (R42). -/
theorem wordOfBytes_bytes (w : Word) :
    wordOfBytes (w.extractLsb' 0 8) (w.extractLsb' 8 8) (w.extractLsb' 16 8) (w.extractLsb' 24 8) = w := by
  apply BitVec.eq_of_getLsbD_eq
  intro i hi
  simp only [wordOfBytes, BitVec.getLsbD_append, BitVec.getLsbD_extractLsb']
  by_cases h1 : i < 8
  · simp [h1]
  · by_cases h2 : i - 8 < 8
    · have : 8 + (i - 8) = i := by omega
      simp [h1, h2, this]
    · by_cases h3 : i - 8 - 8 < 8
      · have : 16 + (i - 8 - 8) = i := by omega
        simp [h1, h2, h3, this]
      · have h4 : i - 8 - 8 - 8 < 8 := by omega
        have : 24 + (i - 8 - 8 - 8) = i := by omega
        simp [h1, h2, h3, h4, this]

/-- Decoding the bytes of a word is decoding the word. -/
theorem decodeBytes_bytesOfWord (w : Word) (rest : List Byte) :
    decodeBytes (bytesOfWord w ++ rest) =
      match decode w with
      | .instr i => .ok (i, rest)
      | .notInSpec v => .error (.notInSpec v) := by
  cases h : decode w <;> simp [bytesOfWord, decodeBytes, wordOfBytes_bytes, h]

end Sys2Proof
end

