-- ==== Sys2Proof/Laws/Operands.lean ====
section
/-! SUPPORT. What the pseudocode primitives do: lengths, elements, saturation, the predicate-constraint count. -/

namespace Sys2Proof

/-- The elements tile the register (R93). -/
theorem elements_tile (v : VecLen) : v.elements * 64 = v.bits := by
  simp only [VecLen.elements, VecLen.bits]; omega

/-- `elements` is even and between 2 and 32 (R22). -/
theorem elements_eq (v : VecLen) : v.elements = 2 * (v.quads.val + 1) := by
  simp only [VecLen.elements, VecLen.bits]; omega

theorem elements_bounds (v : VecLen) : 2 ≤ v.elements ∧ v.elements ≤ 32 := by
  rw [elements_eq]; have := v.quads.isLt; omega

namespace Machine

/-- `SInt` by the sign bit, as R12 writes it. -/
theorem sInt_eq {n : Nat} (x : BitVec n) : sInt x = (uInt x : Int) - 2 ^ n * (if x.msb then 1 else 0) := by
  unfold sInt uInt
  rw [BitVec.toInt_eq_msb_cond]
  split <;> simp_all

/-- Reading an element reads its bits (R13). -/
theorem getLsbD_elemGet {n : Nat} (v : BitVec n) (e size k : Nat) :
    (elemGet v e size).getLsbD k = (decide (k < size) && v.getLsbD (e * size + k)) := by
  simp [elemGet]

@[simp] theorem getElem_elemGet {n : Nat} (v : BitVec n) (e size k : Nat) (h : k < size) :
    (elemGet v e size)[k] = v.getLsbD (e * size + k) := by
  rw [← BitVec.getLsbD_eq_getElem, getLsbD_elemGet]; simp [h]

/-- Writing an element replaces exactly its bits (R13). -/
theorem getLsbD_elemSet {n : Nat} (v : BitVec n) (e size : Nat) (x : BitVec size) (k : Nat) :
    (elemSet v e size x).getLsbD k =
      (decide (k < n) &&
        if e * size ≤ k ∧ k < e * size + size then x.getLsbD (k - e * size) else v.getLsbD k) := by
  unfold elemSet
  by_cases hk : k < n
  · by_cases h1 : e * size ≤ k
    · by_cases h2 : k < e * size + size
      · have h3 : k - e * size < size := by omega
        simp [hk, h1, h2, h3, Nat.not_lt.mpr h1]
      · have h3 : ¬ k - e * size < size := by omega
        have h4 : x.getLsbD (k - e * size) = false := BitVec.getLsbD_of_ge _ _ (Nat.not_lt.mp h3)
        simp [hk, h1, h2, h3, h4, Nat.not_lt.mpr h1]
    · have h1' : k < e * size := by omega
      simp [hk, h1, h1']
  · simp [hk, BitVec.getLsbD_of_ge _ _ (Nat.not_lt.mp hk)]

/-- The element written reads back, where it lies inside the register. -/
theorem elemGet_elemSet_same {n : Nat} (v : BitVec n) (e size : Nat) (x : BitVec size) (h : (e + 1) * size ≤ n) :
    elemGet (elemSet v e size x) e size = x := by
  apply BitVec.eq_of_getLsbD_eq
  intro k hk
  have : e * size + k < n := by rw [Nat.add_mul] at h; omega
  rw [getLsbD_elemGet, getLsbD_elemSet]
  simp [hk, this]

/-- Every other element keeps its value. -/
theorem elemGet_elemSet_other {n : Nat} (v : BitVec n) {e f size : Nat} (x : BitVec size) (hne : f ≠ e) :
    elemGet (elemSet v e size x) f size = elemGet v f size := by
  apply BitVec.eq_of_getLsbD_eq
  intro k hk
  rw [getLsbD_elemGet, getLsbD_elemGet, getLsbD_elemSet]
  have hout : ¬ (e * size ≤ f * size + k ∧ f * size + k < e * size + size) := by
    rcases Nat.lt_or_gt_of_ne hne with h | h
    · have := Nat.mul_le_mul_right size h
      rw [Nat.succ_mul] at this; omega
    · have := Nat.mul_le_mul_right size h
      rw [Nat.succ_mul] at this; omega
  by_cases hn : f * size + k < n
  · simp [hk, hout, hn]
  · simp [hk, BitVec.getLsbD_of_ge v _ (Nat.not_lt.mp hn), hn]

/-- A register is its elements, where they tile it (R22, R93). -/
theorem eq_of_elemGet_eq {n size : Nat} (hs : 0 < size) {v w : BitVec n} (m : Nat) (hm : m * size = n)
    (h : ∀ e, e < m → elemGet v e size = elemGet w e size) : v = w := by
  apply BitVec.eq_of_getLsbD_eq
  intro k hk
  have hlt : k / size < m := by rw [Nat.div_lt_iff_lt_mul hs, hm]; exact hk
  have := congrArg (fun x => x.getLsbD (k % size)) (h _ hlt)
  simp only [getLsbD_elemGet, Nat.mod_lt _ hs, decide_true, Bool.true_and] at this
  rwa [Nat.mul_comm, Nat.div_add_mod] at this

/-- `SatQ` with `unsigned = FALSE`: the value clamped to the signed range (R14). -/
theorem toInt_satQ_signed (i : Int) (n : Nat) (hn : 0 < n) :
    (satQ i n false).1.toInt = max (-(2 ^ (n - 1))) (min i (2 ^ (n - 1) - 1)) := by
  have hp : (0 : Int) < 2 ^ (n - 1) := by positivity
  have key : ∀ j : Int, -(2 ^ (n - 1)) ≤ j → j < 2 ^ (n - 1) → (BitVec.ofInt n j).toInt = j := by
    intro j h1 h2
    exact BitVec.toInt_ofInt_eq_self hn h1 h2
  unfold satQ satHi satLo
  simp only [Bool.false_eq_true, if_false]
  split
  · rw [key _ (by omega) (by omega)]; omega
  · split
    · rw [key _ (by omega) (by omega)]; omega
    · rw [key _ (by omega) (by omega)]; omega

/-- `FloorPow2` is a power of two, at most its argument and more than half of it (R81). -/
theorem floorPow2_bounds {x : Nat} (hx : 1 ≤ x) : floorPow2 x ≤ x ∧ x < 2 * floorPow2 x := by
  have h0 : x ≠ 0 := by omega
  unfold floorPow2
  refine ⟨Nat.log2_self_le h0, ?_⟩
  have := @Nat.lt_log2_self x
  rw [Nat.pow_succ] at this; omega

theorem fixedCount_le (elements n : Nat) : fixedCount elements n ≤ elements := by
  unfold fixedCount; split <;> omega

/-- The count never exceeds the number of elements (R80), where there is at least one. -/
theorem decodePredCount_le (vl : Nat) (pat : BitVec 5) (esz : Nat) (h : 1 ≤ vl / esz) :
    decodePredCount vl pat esz ≤ vl / esz := by
  unfold decodePredCount
  split <;> first
    | exact (floorPow2_bounds h).1
    | exact fixedCount_le _ _
    | exact Nat.sub_le _ _
    | exact Nat.le_refl _
    | exact Nat.zero_le _

/-- The multiplier is 1 to 16 (R58). -/
theorem multiplier_bounds (imm4 : BitVec 4) : 1 ≤ multiplier imm4 ∧ multiplier imm4 ≤ 16 := by
  have := imm4.isLt
  unfold multiplier uInt; omega

/-- The decrement is 0 to 512 (R88). -/
theorem decrement_le (v : VecLen) (pattern : BitVec 5) (imm4 : BitVec 4) : decrement v pattern imm4 ≤ 512 := by
  have hb := elements_bounds v
  have hc := decodePredCount_le v.bits pattern esize (by unfold VecLen.elements at hb; unfold esize; omega)
  have hm := multiplier_bounds imm4
  unfold decrement
  calc _ ≤ 32 * 16 := Nat.mul_le_mul (by unfold VecLen.elements at hb; unfold esize at hc ⊢; omega) hm.2
    _ = 512 := by norm_num

end Machine
end Sys2Proof
end

