-- ==== Sys2Proof/Laws/Lanes.lean ====
section
/-! SUPPORT. What the loop of R83 does, element by element. -/

namespace Sys2Proof.Machine

/-- The value of a decremented element: the exact difference, not below `-2^63`, where the decrement is not negative (R84). -/
theorem toInt_decrementLane (x : Lane) (dec : Nat) :
    (decrementLane x dec).toInt = max (-(2 ^ 63)) (x.toInt - (dec : Int)) := by
  have h := toInt_satQ_signed (x.toInt - (dec : Int)) 64 (by norm_num)
  have hx := BitVec.toInt_lt (x := x)
  simp only [Nat.reduceSub] at h hx
  have : (decrementLane x dec) = (satQ (x.toInt - (dec : Int)) 64 false).1 := rfl
  rw [this, h]
  omega

/-- The loop over the first `m` elements sets exactly those. -/
theorem elemGet_loop {n : Nat} (f : Nat → Lane) (start : BitVec n) (m : Nat) (hm : m * 64 ≤ n) (e : Nat) :
    elemGet ((List.range m).foldl (fun r k => elemSet r k 64 (f k)) start) e 64 =
      if e < m then f e else elemGet start e 64 := by
  induction m with
  | zero => simp
  | succ m ih =>
    rw [List.range_succ, List.foldl_append]
    simp only [List.foldl_cons, List.foldl_nil]
    by_cases h : e = m
    · subst h
      rw [elemGet_elemSet_same _ _ _ _ hm]; simp
    · rw [elemGet_elemSet_other _ _ h, ih (by omega)]
      by_cases h2 : e < m
      · simp [h2, Nat.lt_succ_of_lt h2]
      · have : ¬ e < m + 1 := by omega
        simp [h2, this]

/-- Every element of the result is the decremented element of the old value (R83, R93). -/
theorem elemGet_decrementLanes {vl : Nat} (x : BitVec vl) (dec e : Nat) (h : e < vl / 64) :
    elemGet (decrementLanes x dec) e 64 = decrementLane (elemGet x e 64) dec := by
  have := elemGet_loop (fun k => decrementLane (elemGet x k 64) dec) (0 : BitVec vl) (vl / 64)
    (Nat.div_mul_le_self _ _) e
  rw [if_pos h] at this
  exact this

/-- Decrementing by nothing gives every element back (R87). -/
theorem decrementLane_zero (x : Lane) : decrementLane x 0 = x := by
  apply BitVec.eq_of_toInt_eq
  rw [toInt_decrementLane]
  have := BitVec.le_toInt x
  simp only [Nat.reduceSub] at this
  omega

/-- Two decrements of one element are one decrement by the sum (R94). -/
theorem decrementLane_add (x : Lane) (d1 d2 : Nat) :
    decrementLane (decrementLane x d1) d2 = decrementLane x (d1 + d2) := by
  apply BitVec.eq_of_toInt_eq
  simp only [toInt_decrementLane]
  push_cast
  omega

end Sys2Proof.Machine
end

