-- ==== Sys2Proof/Laws/Memory.lean ====
section
/-! SUPPORT. The address space: its canonical form, and what a byte, a word and the fetch read in it. -/

namespace Sys2Proof.Machine

theorem wf_cons_iff (c : Host.Cell) (m : Memory) :
    Memory.wf (c :: m) = true ↔ (∀ d ∈ m.head?, c.1 < d.1) ∧ Memory.wf m = true := by
  cases m with
  | nil => simp [Memory.wf]
  | cons d rest => simp [Memory.wf]

/-- The first address listed is the one the program text starts at. -/
theorem head_programText (a : Nat) (ws : List Word) : ∀ d ∈ (programText a ws).head?, d.1 = a := by
  cases ws <;> simp [programText, wordCells]

/-- The program text is in the canonical form, wherever it stands. -/
theorem programText_wf (a : Nat) (ws : List Word) : Memory.wf (programText a ws) = true := by
  induction ws generalizing a with
  | nil => rfl
  | cons w ws ih =>
    have h := head_programText (a + 4) ws
    simp only [programText, wordCells, List.cons_append, List.nil_append, wf_cons_iff, List.head?_cons,
      Option.mem_some_iff, forall_eq', ih (a + 4), and_true]
    refine ⟨by omega, by omega, by omega, ?_⟩
    intro d hd
    rw [h d hd]; omega

/-- The address space of every state is in the canonical form. -/
theorem memory_wf (s : State) : Memory.wf s.memory = true := programText_wf _ _

/-- Below its start the program text lists nothing (R45). -/
theorem read_programText_below (a : Nat) (ws : List Word) (x : Nat) (h : x < a) :
    Memory.read (programText a ws) x = none := by
  induction ws generalizing a with
  | nil => rfl
  | cons w ws ih =>
    have h0 : (x == a) = false := by simp; omega
    have h1 : (x == a + 1) = false := by simp; omega
    have h2 : (x == a + 2) = false := by simp; omega
    have h3 : (x == a + 3) = false := by simp; omega
    simp only [Memory.read, programText, wordCells, List.cons_append, List.nil_append, List.lookup, h0, h1, h2, h3]
    exact ih (a + 4) (by omega)

/-- Byte `k` of word `i` stands at `a + 4 * i + k`, least significant byte first; past the last word nothing is listed (R8, R41,
R42, R45). -/
theorem read_programText (a : Nat) (ws : List Word) (i k : Nat) (hk : k < 4) :
    Memory.read (programText a ws) (a + 4 * i + k) = ws[i]?.map (fun w => w.extractLsb' (8 * k) 8) := by
  induction ws generalizing a i with
  | nil => simp [Memory.read, programText]
  | cons w ws ih =>
    cases i with
    | zero =>
      have : k = 0 ∨ k = 1 ∨ k = 2 ∨ k = 3 := by omega
      have e1 : (a + 1 == a) = false := by simp
      have e2 : (a + 2 == a) = false := by simp
      have e3 : (a + 3 == a) = false := by simp
      rcases this with rfl | rfl | rfl | rfl <;>
        simp [Memory.read, programText, wordCells, List.lookup, e1, e2, e3]
    | succ i =>
      have h0 : (a + 4 * (i + 1) + k == a) = false := by simp; omega
      have h1 : (a + 4 * (i + 1) + k == a + 1) = false := by simp; omega
      have h2 : (a + 4 * (i + 1) + k == a + 2) = false := by simp; omega
      have h3 : (a + 4 * (i + 1) + k == a + 3) = false := by simp; omega
      have := ih (a + 4) i
      rw [show a + 4 + 4 * i + k = a + 4 * (i + 1) + k from by omega] at this
      simpa only [Memory.read, programText, wordCells, List.cons_append, List.nil_append, List.lookup, h0, h1, h2, h3,
        List.getElem?_cons_succ] using this

/-- Four bytes read little-endian give the word of the program that stands there (R41, R42). -/
theorem readWord_programText (a : Nat) (ws : List Word) (i : Nat) :
    Memory.readWord (programText a ws) (a + 4 * i) = ws[i]? := by
  have h0 := read_programText a ws i 0 (by omega)
  have h1 := read_programText a ws i 1 (by omega)
  have h2 := read_programText a ws i 2 (by omega)
  have h3 := read_programText a ws i 3 (by omega)
  unfold Memory.readWord
  rw [Nat.add_zero] at h0
  rw [h0, h1, h2, h3]
  cases ws[i]? with
  | none => rfl
  | some w => simpa using wordOfBytes_bytes w

theorem readWord_below (a : Nat) (ws : List Word) (x : Nat) (h : x < a) :
    Memory.readWord (programText a ws) x = none := by
  simp [Memory.readWord, read_programText_below a ws x h]

/-- `pc` is `base` plus its offset, where it does not stand below `base`. -/
theorem pc_eq_base_add_offset (s : State) (h : s.par.base.toNat ≤ s.pc.toNat) :
    s.pc.toNat = s.par.base.toNat + s.pcOffset := by
  have h1 := s.pc.isLt
  have h2 := s.par.base.isLt
  unfold State.pcOffset
  rw [BitVec.toNat_sub]
  omega

/-- All the fetch can find (R41): in a legal place the word of the program at the offset of `pc`, else the end; else nothing. -/
theorem fetch_eq (s : State) :
    s.fetch =
      if s.par.legal = true then
        match (if s.par.base.toNat ≤ s.pc.toNat ∧ s.pcOffset % 4 = 0 then s.par.prog[s.pcOffset / 4]? else none) with
        | some w => .word w
        | none => if s.pc = s.endAddr then .programEnd else .nothing
      else .nothing := by
  have key : (if s.pcOffset % 4 = 0 then s.memory.readWord s.pc.toNat else none) =
      (if s.par.base.toNat ≤ s.pc.toNat ∧ s.pcOffset % 4 = 0 then s.par.prog[s.pcOffset / 4]? else none) := by
    by_cases ha : s.pcOffset % 4 = 0
    · by_cases hb : s.par.base.toNat ≤ s.pc.toNat
      · have h4 : s.pcOffset = 4 * (s.pcOffset / 4) := by omega
        have hpc : s.pc.toNat = s.par.base.toNat + 4 * (s.pcOffset / 4) := by
          rw [← h4]; exact pc_eq_base_add_offset s hb
        simp only [ha, hb, and_self, if_true]
        rw [hpc]
        exact readWord_programText _ _ _
      · simp only [ha, hb, false_and, if_true, if_false]
        exact readWord_below _ _ _ (Nat.not_le.mp hb)
    · simp [ha]
  cases h : (if s.par.base.toNat ≤ s.pc.toNat ∧ s.pcOffset % 4 = 0 then s.par.prog[s.pcOffset / 4]? else none) <;>
    simp [State.fetch, key, h]

/-- Where the program may not stand, the fetch finds nothing (R8, R43, R132; log 8). -/
theorem fetch_of_not_legal {s : State} (h : s.par.legal = false) : s.fetch = .nothing := by
  simp [State.fetch, h]

end Sys2Proof.Machine
end

