-- ==== Sys2Proof/Laws/PerInstr.lean ====
section
/-! SUPPORT. Statements about every instruction as syntax, one lemma per constructor. -/

/-- The word of the instruction is one that the decoder accepts (R57). -/
def Sys2Proof.Laws.EncodeMatches.Statement (i : Sys2Proof.Instr) : Prop :=
  Sys2Proof.isSqdecd (Sys2Proof.encode i) = true

theorem Sys2Proof.Laws.EncodeMatches.sqdecdVector (imm4 : BitVec 4) (pattern zdn : BitVec 5) :
    Sys2Proof.Laws.EncodeMatches.Statement (.sqdecdVector imm4 pattern zdn) := by
  have h1 : ∀ x : BitVec 4, (BitVec.ofNat 32 (x.toNat + 1 - 1) <<< 16) &&& Sys2Proof.sqdecdMask = 0 := by decide
  have h2 : ∀ x : BitVec 5, (x.setWidth 32 <<< 5) &&& Sys2Proof.sqdecdMask = 0 := by decide
  have h3 : ∀ x : BitVec 5, BitVec.ofNat 32 x.toNat &&& Sys2Proof.sqdecdMask = 0 := by decide
  have h0 : Sys2Proof.sqdecdMatch &&& Sys2Proof.sqdecdMask = Sys2Proof.sqdecdMatch := by decide
  have and_or : ∀ a b m : BitVec 32, (a ||| b) &&& m = (a &&& m) ||| (b &&& m) := by
    intro a b m
    apply BitVec.eq_of_getLsbD_eq
    intro i _
    simp [Bool.and_or_distrib_right]
  simp only [Sys2Proof.Laws.EncodeMatches.Statement, Sys2Proof.isSqdecd, Sys2Proof.encode, Sys2Proof.encodeOperands,
    and_or, h0, h1, h2, h3]
  decide
end

