-- ==== Sys2Proof/Laws/State.lean ====
section
/-! SUPPORT. One lemma per field per update of the state, and what the register accessors give after a write. -/

namespace Sys2Proof.Machine

@[simp] theorem start_par (par : Params) (z : Vector (BitVec par.vl.bits) 32) : (State.start par z).par = par := rfl
@[simp] theorem start_z (par : Params) (z : Vector (BitVec par.vl.bits) 32) : (State.start par z).z = z := rfl
@[simp] theorem start_pc (par : Params) (z : Vector (BitVec par.vl.bits) 32) : (State.start par z).pc = par.base := rfl

@[simp] theorem advancePc_par (s : State) : s.advancePc.par = s.par := rfl
@[simp] theorem advancePc_z (s : State) : s.advancePc.z = s.z := rfl
@[simp] theorem advancePc_pc (s : State) : s.advancePc.pc = s.pc + 4 := rfl
@[simp] theorem advancePc_readZ (s : State) (n : Fin 32) : s.advancePc.readZ n = s.readZ n := rfl
@[simp] theorem advancePc_lane (s : State) (n : Fin 32) (e : Nat) : s.advancePc.lane n e = s.lane n e := rfl
@[simp] theorem advancePc_memory (s : State) : s.advancePc.memory = s.memory := rfl

@[simp] theorem writeZ_par (s : State) (n : Fin 32) (v : BitVec s.par.vl.bits) : (s.writeZ n v).par = s.par := rfl
@[simp] theorem writeZ_pc (s : State) (n : Fin 32) (v : BitVec s.par.vl.bits) : (s.writeZ n v).pc = s.pc := rfl
@[simp] theorem writeZ_memory (s : State) (n : Fin 32) (v : BitVec s.par.vl.bits) : (s.writeZ n v).memory = s.memory := rfl

/-- The register written holds the value written. -/
@[simp] theorem readZ_writeZ_same (s : State) (n : Fin 32) (v : BitVec s.par.vl.bits) : (s.writeZ n v).readZ n = v := by
  simp [State.readZ, State.writeZ, Vector.get_eq_getElem]

/-- Every other register keeps its value (R31). -/
theorem readZ_writeZ_other (s : State) {n m : Fin 32} (v : BitVec s.par.vl.bits) (h : m ≠ n) :
    (s.writeZ n v).readZ m = s.readZ m := by
  have h' : n.val ≠ m.val := fun e => h (Fin.ext e.symm)
  simp [State.readZ, State.writeZ, Vector.get_eq_getElem, Vector.getElem_set_ne, h']

@[simp] theorem lane_writeZ_same (s : State) (n : Fin 32) (v : BitVec s.par.vl.bits) (e : Nat) :
    (s.writeZ n v).lane n e = elemGet v e 64 :=
  congrArg (fun x => elemGet x e 64) (readZ_writeZ_same s n v)

theorem lane_writeZ_other (s : State) {n m : Fin 32} (v : BitVec s.par.vl.bits) (e : Nat) (h : m ≠ n) :
    (s.writeZ n v).lane m e = s.lane m e :=
  congrArg (fun x => elemGet x e 64) (readZ_writeZ_other s v h)

@[simp] theorem withProgram_z (s : State) (prog : List Word) (base : Addr) : (s.withProgram prog base).z = s.z := rfl
@[simp] theorem withProgram_pc (s : State) (prog : List Word) (base : Addr) : (s.withProgram prog base).pc = s.pc := rfl
@[simp] theorem withProgram_vl (s : State) (prog : List Word) (base : Addr) :
    (s.withProgram prog base).par.vl = s.par.vl := rfl
@[simp] theorem withProgram_haveSve (s : State) (prog : List Word) (base : Addr) :
    (s.withProgram prog base).par.haveSve = s.par.haveSve := rfl
@[simp] theorem withProgram_sveAccess (s : State) (prog : List Word) (base : Addr) :
    (s.withProgram prog base).par.sveAccess = s.par.sveAccess := rfl
@[simp] theorem withProgram_prog (s : State) (prog : List Word) (base : Addr) :
    (s.withProgram prog base).par.prog = prog := rfl
@[simp] theorem withProgram_base (s : State) (prog : List Word) (base : Addr) :
    (s.withProgram prog base).par.base = base := rfl
@[simp] theorem withProgram_memory (s : State) (prog : List Word) (base : Addr) :
    (s.withProgram prog base).memory = programText base.toNat prog := rfl

end Sys2Proof.Machine
end

