-- ==== Sys2Proof/Laws/WellFormed.lean ====
section
/-! SUPPORT. What the checks of WellFormed say. -/

namespace Sys2Proof

/-- The program stands legally where R8 and R133 say so. -/
theorem legal_iff (p : Params) :
    p.legal = true ↔ p.base.toNat % 4 = 0 ∧ p.base.toNat + 4 * p.prog.length ≤ 2 ^ 64 := by
  unfold Params.legal Params.check
  split
  · simp; omega
  · split
    · simp; omega
    · simp; omega

end Sys2Proof
end

