-- ==== Sys2Proof/Laws/Step.lean ====
section
/-! SUPPORT. Everything an instruction and a step can do, each said once. -/

namespace Sys2Proof.Machine

/-- The next state of `SQDECD (vector)` where it executes normally (R83). -/
def State.decremented (s : State) (imm4 : BitVec 4) (pattern zdn : BitVec 5) : State :=
  (s.writeZ (regNumber zdn)
    (decrementLanes (s.readZ (regNumber zdn)) (decrement s.par.vl pattern imm4))).advancePc

@[simp] theorem decremented_par (s : State) (imm4 : BitVec 4) (pattern zdn : BitVec 5) :
    (s.decremented imm4 pattern zdn).par = s.par := rfl
@[simp] theorem decremented_pc (s : State) (imm4 : BitVec 4) (pattern zdn : BitVec 5) :
    (s.decremented imm4 pattern zdn).pc = s.pc + 4 := rfl
@[simp] theorem decremented_memory (s : State) (imm4 : BitVec 4) (pattern zdn : BitVec 5) :
    (s.decremented imm4 pattern zdn).memory = s.memory := rfl

/-- Every element of the destination is decremented (R83). -/
theorem lane_decremented_same (s : State) (imm4 : BitVec 4) (pattern zdn : BitVec 5) (e : Nat)
    (h : e < s.par.vl.elements) :
    (s.decremented imm4 pattern zdn).lane (regNumber zdn) e =
      decrementLane (s.lane (regNumber zdn) e) (decrement s.par.vl pattern imm4) := by
  unfold State.decremented
  rw [advancePc_lane, lane_writeZ_same]
  exact elemGet_decrementLanes _ _ _ h

/-- Every other register keeps every element (R31). -/
theorem lane_decremented_other (s : State) (imm4 : BitVec 4) (pattern zdn : BitVec 5) {m : Fin 32} (e : Nat)
    (h : m ≠ regNumber zdn) : (s.decremented imm4 pattern zdn).lane m e = s.lane m e := by
  unfold State.decremented
  rw [advancePc_lane]
  exact lane_writeZ_other s _ e h

/-- The three ways `SQDECD (vector)` can end (R110, R126). -/
theorem exec_sqdecd_cases (s : State) (imm4 : BitVec 4) (pattern zdn : BitVec 5) :
    exec (.sqdecdVector imm4 pattern zdn) s =
      if s.par.haveSve then
        match s.par.sveAccess with
        | .enabled => .next (s.decremented imm4 pattern zdn)
        | .trapped => .fault (.exception .sveAccessTrap)
      else .fault (.exception .undefinedInstruction) := rfl

/-- If an instruction answers a next state, it was `SQDECD (vector)` executing normally. -/
theorem exec_next {i : Instr} {s t : State} (h : exec i s = .next t) :
    ∃ imm4 pattern zdn, i = .sqdecdVector imm4 pattern zdn ∧ s.par.haveSve = true ∧ s.par.sveAccess = .enabled ∧
      t = s.decremented imm4 pattern zdn := by
  cases i with
  | sqdecdVector imm4 pattern zdn =>
    rw [exec_sqdecd_cases] at h
    cases hs : s.par.haveSve <;> cases ha : s.par.sveAccess <;> simp_all

/-- If a step answers a next state, it fetched a word that decodes, and that instruction executed normally. -/
theorem step_next {s t : State} (h : step s = .next t) :
    ∃ w imm4 pattern zdn, s.fetch = .word w ∧ decode w = .instr (.sqdecdVector imm4 pattern zdn) ∧
      s.par.haveSve = true ∧ s.par.sveAccess = .enabled ∧ t = s.decremented imm4 pattern zdn := by
  unfold step at h
  split at h
  case h_1 w hw =>
    split at h
    case h_1 i hi =>
      obtain ⟨imm4, pattern, zdn, rfl, h1, h2, h3⟩ := exec_next h
      exact ⟨w, imm4, pattern, zdn, hw, hi, h1, h2, h3⟩
    case h_2 => cases h
  case h_2 => cases h
  case h_3 => cases h

/-- A fetched word stands in a legal program, at the offset of `pc` (R41, R132 d). -/
theorem fetch_word {s : State} {w : Word} (h : s.fetch = .word w) :
    s.par.legal = true ∧ s.par.base.toNat ≤ s.pc.toNat ∧ s.pcOffset % 4 = 0 ∧ s.par.prog[s.pcOffset / 4]? = some w := by
  rw [fetch_eq] at h
  split at h
  case isTrue hl =>
    split at h
    case h_1 v hv =>
      split at hv
      case isTrue hc => exact ⟨hl, hc.1, hc.2, by simpa using hv.trans (congrArg some (by simpa using h))⟩
      case isFalse => cases hv
    case h_2 => split at h <;> cases h
  case isFalse => cases h

/-- The word of a legal program at the offset of `pc` is fetched (R41). -/
theorem fetch_of_word {s : State} {w : Word} (hl : s.par.legal = true) (hb : s.par.base.toNat ≤ s.pc.toNat)
    (h4 : s.pcOffset % 4 = 0) (hw : s.par.prog[s.pcOffset / 4]? = some w) : s.fetch = .word w := by
  simp [fetch_eq, hl, hb, h4, hw]

@[simp] theorem alignPc_par (s : State) : s.alignPc.par = s.par := rfl
@[simp] theorem alignPc_z (s : State) : s.alignPc.z = s.z := rfl

theorem alignPc_toNat (s : State) : s.alignPc.pc.toNat = s.pc.toNat - s.pc.toNat % 4 := by
  have := s.pc.isLt
  unfold State.alignPc
  rw [BitVec.toNat_sub, BitVec.toNat_ofNat]; omega

/-- In every run `pc` is aligned already, and stays as it is. -/
theorem alignPc_pc_of_aligned {s : State} (h : s.pc.toNat % 4 = 0) : s.alignPc.pc = s.pc := by
  simp [State.alignPc, h]

/-- The word placed is the word fetched, in every state. -/
theorem fetch_placeWord (s : State) (w : Word) : (s.placeWord w).fetch = .word w := by
  have ha : s.alignPc.pc.toNat % 4 = 0 := by rw [alignPc_toNat]; omega
  unfold State.placeWord
  generalize s.alignPc = u at ha
  have hlt := u.pc.isLt
  have key : ∀ (prog : List Word) (base : Addr), base.toNat % 4 = 0 → base.toNat + 4 * prog.length ≤ 2 ^ 64 →
      base.toNat ≤ u.pc.toNat → (u.pc - base).toNat % 4 = 0 →
      prog[(u.pc - base).toNat / 4]? = some w → (u.withProgram prog base).fetch = .word w :=
    fun prog base h1 h2 h3 h4 h5 => fetch_of_word ((legal_iff _).mpr ⟨h1, h2⟩) h3 h4 h5
  have ho : (u.pc - u.par.base).toNat = u.pcOffset := rfl
  unfold State.placed
  split
  case isTrue h =>
    obtain ⟨hl, hb, h4, h5⟩ := h
    rw [legal_iff] at hl
    exact key _ _ hl.1 (by rw [List.length_set]; exact hl.2) hb (by rw [ho]; exact h4)
      (by rw [ho, List.getElem?_set_self (by omega)])
  case isFalse =>
    split
    case isTrue h =>
      obtain ⟨hl, hb, h5⟩ := h
      rw [legal_iff] at hl
      have hpc := pc_eq_base_add_offset u hb
      refine key _ _ hl.1 ?_ hb (by rw [ho]; omega) ?_
      · simp only [List.length_append, List.length_singleton]; omega
      · rw [ho, h5, Nat.mul_div_cancel_left _ (by norm_num)]; simp
    case isFalse =>
      refine key _ _ ha ?_ (Nat.le_refl _) (by simp) (by simp)
      simp only [List.length_singleton]; omega

end Sys2Proof.Machine
end

