-- ==== Sys2Proof/Tests/Slice0.lean ====
section
/-! SUPPORT. Decode tests from 95_test_vectors.md T6, smoke tests of every check of WellFormed, two runs of one step, and for every
statement with hypotheses a witness that meets them. Every expected value is the spec's own. -/

namespace Sys2Proof.Machine

/-! ### States for the tests -/

/-- A register value from its elements, element 0 first. -/
def regOfLanes {n : Nat} (ls : List Lane) : BitVec n := ls.foldr (fun l acc => (acc <<< 64) ||| l.setWidth n) 0

/-- A start state at address 0x1000 with one register set and the others zero. -/
def testState (quads : Fin 16) (haveSve : Bool) (access : SveAccess) (prog : List Word) (reg : Fin 32) (ls : List Lane) :
    State :=
  (State.start { vl := ⟨quads⟩, haveSve := haveSve, sveAccess := access, prog := prog, base := 0x1000 }
    (Vector.replicate 32 0)).writeZ reg (regOfLanes ls)

/-- `SQDECD Z0.D` at VL = 128 over `Z0 = [7, 7]` (T11). -/
def t11State : State := testState 0 true .enabled [0x04E0CBE0] 0 [7, 7]

/-- The state after it. -/
def t11Next : State := (t11State.writeZ 0 (regOfLanes [5, 5])).advancePc

/-- The elements of one register and the pc, where a step answers a next state. -/
def lanesAfter (r : Result) (n : Fin 32) : Option (Addr × List Lane) :=
  match r with
  | .next t => some (t.pc, (List.range t.par.vl.elements).map (t.lane n))
  | _ => none

/-! ### Decoding -/

/-- T6: words written out from the encoding diagram and the fields they have; R42 for the bytes. -/
theorem test_decode_words :
    decode 0b00000100111000001100100000000000#32 = .instr (.sqdecdVector 0 0 0) ∧
    decode 0b00000100111011111100101111111111#32 = .instr (.sqdecdVector 0b1111#4 0b11111#5 0b11111#5) ∧
    decode 0b00000100111010001100101011001111#32 = .instr (.sqdecdVector 0b1000#4 0b10110#5 0b01111#5) ∧
    decode 0b00000100111001001100100001111111#32 = .instr (.sqdecdVector 0b0100#4 0b00011#5 0b11111#5) := by decide

theorem test_decode_bytes :
    decodeBytes [0x7F, 0xC8, 0xE4, 0x04, 0xAA] = .ok (.sqdecdVector 0b0100#4 0b00011#5 0b11111#5, [0xAA]) ∧
    decodeTableWord 32 0x04E1CBE5 = some (.sqdecdVector 0b0001#4 0b11111#5 0b00101#5) ∧
    decodeBytes [0x7F, 0xC8, 0xE4] = .error (.tooShort [0x7F, 0xC8, 0xE4]) := by decide

/-- T6: each of the eighteen fixed bits of `0x04E0CBE0` inverted, all zeros, all ones, NOP and MOVPRFX: refused by name. -/
theorem test_decode_refuses_foreign_words :
    ([0x84E0CBE0, 0x44E0CBE0, 0x24E0CBE0, 0x14E0CBE0, 0x0CE0CBE0, 0x00E0CBE0, 0x06E0CBE0, 0x05E0CBE0, 0x0460CBE0,
      0x04A0CBE0, 0x04C0CBE0, 0x04F0CBE0, 0x04E04BE0, 0x04E08BE0, 0x04E0EBE0, 0x04E0DBE0, 0x04E0C3E0, 0x04E0CFE0,
      0x04E0C000, 0x04E0CC00, 0x04F0C800, 0, 0xFFFFFFFF, 0xD503201F, 0x0420BCE0] : List Word).all
      (fun w => decide (decode w = .notInSpec w)) = true := by decide

/-! ### Well-formedness: each check refuses an ill-formed term and accepts its neighbour (R73) -/

theorem test_wellformed_multiplier :
    AsmLine.check ⟨0, 'D', some .all, some 0⟩ = some .multiplier ∧
    AsmLine.check ⟨0, 'D', some .all, some 17⟩ = some .multiplier ∧
    AsmLine.check ⟨0, 'D', some .all, some 1⟩ = none ∧ AsmLine.check ⟨0, 'D', some .all, some 16⟩ = none := by decide

theorem test_wellformed_register :
    AsmLine.check ⟨32, 'D', none, none⟩ = some .register ∧ AsmLine.check ⟨31, 'D', none, none⟩ = none := by decide

theorem test_wellformed_pattern_immediate :
    AsmLine.check ⟨0, 'D', some (.uimm5 32), none⟩ = some .patternImmediate ∧
    AsmLine.check ⟨0, 'D', some (.uimm5 31), none⟩ = none := by decide

theorem test_wellformed_suffix_and_order :
    AsmLine.check ⟨0, 'S', none, none⟩ = some .suffix ∧
    AsmLine.check ⟨0, 'D', none, some 2⟩ = some .multiplierWithoutPattern := by decide

theorem test_wellformed_parameters :
    VecLen.ofBits 192 = .error .vectorLength ∧ VecLen.ofBits 0 = .error .vectorLength ∧
    VecLen.ofBits 2176 = .error .vectorLength ∧ VecLen.ofBits 2048 = .ok ⟨15⟩ ∧
    Params.check { Params.reset with base := 2 } = some .baseAlignment ∧
    Params.check { Params.reset with base := 0xFFFFFFFFFFFFFFFC, prog := [0, 0] } = some .programPastTop ∧
    Params.check { Params.reset with base := 0xFFFFFFFFFFFFFFFC, prog := [0] } = none := by decide

theorem test_wellformed_text :
    readLine "SQDECD Z0.D, VL9".toList = .error .patternName ∧ readLine "SQDECB Z0".toList = .error .template ∧
    assembleText "SQDECD Z0.D, MUL #2".toList = .error .multiplierWithoutPattern := by decide

/-! ### The instruction -/

/-- The worked example of R83, at VL = 256, through one step. -/
theorem test_sqdecd_worked_example :
    lanesAfter (step (testState 1 true .enabled [0x04E1CBE5] 5
      [0x000000000000000A, 0xFFFFFFFFFFFFFFFD, 0x8000000000000002, 0x7FFFFFFFFFFFFFFF])) 5 =
      some (0x1004, [0x0000000000000002, 0xFFFFFFFFFFFFFFF5, 0x8000000000000000, 0x7FFFFFFFFFFFFFF7]) := by
  decide +kernel

/-- T10, the row of VL = 2048 with the greatest decrement: `SQDECD Z0.D, VL32, MUL #16`. -/
theorem test_sqdecd_greatest_decrement :
    lanesAfter (step (testState 15 true .enabled [0x04EFC940] 0
      ([0x80000000000001FF] ++ List.replicate 30 0 ++ [0x7FFFFFFFFFFFFFFF]))) 0 =
      some (0x1004, [0x8000000000000000] ++ List.replicate 30 0xFFFFFFFFFFFFFE00 ++ [0x7FFFFFFFFFFFFDFF]) := by
  decide +kernel

/-! ### The assembler (T7) -/

theorem test_assembler :
    assembleText "SQDECD Z15.D, #22, MUL #9".toList = .ok 0x04E8CACF ∧
    assembleText "SQDECD Z3.D, ALL, MUL #1".toList = .ok 0x04E0CBE3 ∧
    assembleText "SQDECD Z0.D, #29".toList = .ok 0x04E0CBA0 := by decide

theorem test_disassembler :
    disassembleText 0x04E6CBCD = some "SQDECD Z13.D, MUL3, MUL #7".toList ∧
    disassembleText 0x04E0C800 = some "SQDECD Z0.D, POW2".toList ∧
    disassembleText 0x04E0CBE0 = some "SQDECD Z0.D".toList ∧ disassembleText 0xD503201F = none := by decide

/-! ### Witnesses: a state and operands that meet the hypotheses of each statement -/

/-- `FetchReadsTheProgram`, `InstructionBytesAreLittleEndian`: a legal program, a word of it, and `pc` at that word; at the
second word too, the last of the program. -/
theorem witness_fetch :
    t11State.par.legal = true ∧ t11State.par.prog[0]? = some 0x04E0CBE0 ∧
    t11State.pc = t11State.par.base + BitVec.ofNat 64 (4 * 0) ∧
    (testState 0 true .enabled [0, 1] 0 []).advancePc.par.legal = true ∧
    (testState 0 true .enabled [0, 1] 0 []).advancePc.par.prog[1]? = some 1 ∧
    (testState 0 true .enabled [0, 1] 0 []).advancePc.pc = 0x1000 + BitVec.ofNat 64 (4 * 1) := by decide

/-- `DecoderHasTwoAnswers`: words that match and words that do not, a state that fetches one that does not. -/
theorem witness_decoder :
    (0x04E0C800#32 &&& 0xFFF0FC00#32 = 0x04E0C800#32 ∧ 0x04EFCBFF#32 &&& 0xFFF0FC00#32 = 0x04E0C800#32 ∧
      decode 0x04EFCBFF = decode 0x04EFCBFF) ∧
    0xD503201F#32 &&& 0xFFF0FC00#32 ≠ 0x04E0C800#32 ∧
    (testState 0 true .enabled [0xD503201F] 0 []).fetch = .word 0xD503201F := by decide

/-- `AssemblingFunctionInvertsDecoder`: operands at both ends of their ranges, and a word that decodes. -/
theorem witness_assembling :
    (31 ≤ 31 ∧ 1 ≤ 16 ∧ 16 ≤ 16) ∧ (0 ≤ 31 ∧ 1 ≤ 1 ∧ 1 ≤ 16) ∧
    decode 0x04EFCBFF = .instr (.sqdecdVector 0b1111#4 0b11111#5 0b11111#5) := by decide

/-- `InvertedFixedBitIsRefused`, `EncodingsAreTheMatchingWords`: the ends of the two ranges of fixed bits. -/
theorem witness_fixed_bits :
    ((20 ≤ 20 ∧ 20 ≤ 31) ∨ (10 ≤ 20 ∧ 20 ≤ 15)) ∧ ((20 ≤ 31 ∧ 31 ≤ 31) ∨ (10 ≤ 31 ∧ 31 ≤ 15)) ∧
    ((20 ≤ 10 ∧ 10 ≤ 31) ∨ (10 ≤ 10 ∧ 10 ≤ 15)) ∧ ((20 ≤ 15 ∧ 15 ≤ 31) ∨ (10 ≤ 15 ∧ 15 ≤ 15)) ∧ 31 < 32 := by decide

/-- `FieldsAreIndependent`, `DisassembledTextAssembles`: an encoding with every field zero and one with every field full. -/
theorem witness_encodings : isSqdecd 0x04E0C800 = true ∧ isSqdecd 0x04EFCBFF = true := by decide

/-- `SaturationClampsToRange`: one value in each of its six clauses, at the ends of their ranges, for 64 bits and for one. -/
theorem witness_saturation :
    (1 ≤ 64 ∧ 1 ≤ 1) ∧ (2 ^ (64 - 1) - 1 < (9223372036854775808 : Int)) ∧ ((-9223372036854775809 : Int) < -(2 ^ (64 - 1))) ∧
    (-(2 ^ (64 - 1)) ≤ (-9223372036854775808 : Int) ∧ (-9223372036854775808 : Int) ≤ 2 ^ (64 - 1) - 1) ∧
    (-(2 ^ (1 - 1)) ≤ (0 : Int) ∧ (0 : Int) ≤ 2 ^ (1 - 1) - 1) ∧
    (2 ^ 64 - 1 < (18446744073709551616 : Int)) ∧ ((-1 : Int) < 0) ∧
    ((0 : Int) ≤ 18446744073709551615 ∧ (18446744073709551615 : Int) ≤ 2 ^ 64 - 1) ∧
    ((-9223372036854775809 : Int) < -9223372036854775808) ∧ ((9223372036854775807 : Int) < 9223372036854775808) := by decide

/-- `ElementAccessIsASlice`: the last element of a register of 128 bits, bits at the ends of the slice and outside it. -/
theorem witness_element :
    0 < 64 ∧ (1 + 1) * 64 ≤ 128 ∧ 0 < 64 ∧ 63 < 64 ∧ (63 < 1 * 64 ∨ (1 + 1) * 64 ≤ 63) ∧
    (128 < 1 * 64 ∨ (1 + 1) * 64 ≤ 128) := by decide

/-- `FloorPow2IsTheLargestPower`, `PredicateCountArms`, `CountTableOfLegalLengths`: lengths, multiples and unnamed patterns. -/
theorem witness_counts :
    (1 ≤ 1 ∧ 2 ^ 0 ≤ 1 ∧ 1 < 2 ^ (0 + 1)) ∧ (0 < 128 ∧ 0 < 64 ∧ 128 % 64 = 0) ∧
    (4 % 4 = 0 ∧ 4 ≤ 256 / 64) ∧ (3 % 3 = 0 ∧ 3 ≤ 256 / 64) ∧
    (14 ≤ (14#5).toNat ∧ (14#5).toNat ≤ 28) ∧ (14 ≤ (28#5).toNat ∧ (28#5).toNat ≤ 28) := by decide

/-- The statements about `SQDECD (vector)` where it executes normally: a state in which SVE is implemented and enabled, and both
ends of the range of elements. -/
theorem witness_sveReady : t11State.sveReady ∧ 0 < t11State.par.vl.elements ∧ 1 < t11State.par.vl.elements ∧
    (1 : Fin 32) ≠ regNumber 0 := by decide

/-- `ClosedFormOfOneElement`, `SaturationIsOneSided`, `LeastElementIsFixedAndDecrementIsMonotone`: elements on both sides of the
clamp (`dec = 2`: `MIN + 2` lands exactly on `MIN`, `MIN + 1` is clamped), the least element, and a greatest element with a zero
decrement (T9). -/
theorem witness_elements :
    ((testState 0 true .enabled [] 0 [0x8000000000000002, 0x8000000000000001]).sveReady ∧
      decrement ⟨0⟩ 0b11111#5 0 = 2 ∧
      -(2 ^ 63) ≤ ((testState 0 true .enabled [] 0 [0x8000000000000002, 0x8000000000000001]).lane (regNumber 0) 0).toInt - 2 ∧
      ((testState 0 true .enabled [] 0 [0x8000000000000002, 0x8000000000000001]).lane (regNumber 0) 1).toInt
        < -(2 ^ 63) + 2) ∧
    (testState 0 true .enabled [] 0 [0x8000000000000000]).lane (regNumber 0) 0 = 0x8000000000000000 ∧
    (testState 0 true .enabled [] 0 [0x7FFFFFFFFFFFFFFF]).lane (regNumber 0) 0 = 0x7FFFFFFFFFFFFFFF ∧
    decrement ⟨0⟩ 0b00011#5 0 = 0 := by decide

/-- `ZeroCountKeepsTheRegister`: `VL3` at 128 bits, and an unnamed pattern. -/
theorem witness_zero_count :
    t11State.sveReady ∧ decodePredCount t11State.par.vl.bits 0b00011#5 64 = 0 ∧
    decodePredCount t11State.par.vl.bits 14#5 64 = 0 := by decide

/-- `SqdecdChangesOnlyItsRegisterAndPc`: an execution that answers a next state, and another register. -/
theorem witness_frame :
    exec (.sqdecdVector 0 0b11111#5 0) t11State = .next t11Next ∧ (31 : Fin 32) ≠ regNumber 0 :=
  ⟨congrArg Host.Outcome.next (by decide), by decide⟩

/-- `EveryStepKeepsTheInvariant`, `EveryStepChangesAtMostOneRegister`: a state that meets the invariant and its next state. -/
theorem witness_step : t11State.Inv ∧ step t11State = .next t11Next :=
  ⟨by decide, (show step t11State = exec (.sqdecdVector 0 0b11111#5 0) t11State from rfl).trans witness_frame.1⟩

/-- `ElementsAreIndependent`: different registers and lanes that hold the same element, in different states. -/
theorem witness_independence :
    t11State.lane (regNumber 0) 1 = (testState 0 true .enabled [] 3 [7, 9]).lane (regNumber 3) 0 ∧
    t11State.par.vl = (testState 0 true .enabled [] 3 [7, 9]).par.vl ∧
    1 < t11State.par.vl.elements ∧ 0 < (testState 0 true .enabled [] 3 [7, 9]).par.vl.elements ∧
    (∃ t, exec (.sqdecdVector 0 0b11111#5 0) t11State = .next t) ∧
    (∃ t, exec (.sqdecdVector 0 0b11111#5 3) (testState 0 true .enabled [] 3 [7, 9]) = .next t) :=
  ⟨by decide, by decide, by decide, by decide, ⟨_, rfl⟩, ⟨_, rfl⟩⟩

/-- `OrderOfDecrementsDoesNotMatter`: two lists with the same pairs in another order, by different words (`VL2` and `ALL` are the
same count at 128 bits, R82). -/
theorem witness_order :
    (([.sqdecdVector 0 0b11111#5 0, .sqdecdVector 1 0 1] : List Instr).map (decrementOf t11State.par.vl)).Perm
      (([.sqdecdVector 1 0 1, .sqdecdVector 0 0b00010#5 0] : List Instr).map (decrementOf t11State.par.vl)) := by decide

/-- `OutcomeOfAMatchingWord`, `ExceptionPriority`: a state that fetches a matching word, for each row of R126's table. -/
theorem witness_outcomes :
    0x04E0CBE0#32 &&& 0xFFF0FC00#32 = 0x04E0C800#32 ∧
    (testState 0 false .enabled [0x04E0CBE0] 0 [7, 7]).fetch = .word 0x04E0CBE0 ∧
    (testState 0 false .trapped [0x04E0CBE0] 0 [7, 7]).fetch = .word 0x04E0CBE0 ∧
    (testState 0 true .trapped [0x04E0CBE0] 0 [7, 7]).fetch = .word 0x04E0CBE0 ∧
    t11State.fetch = .word 0x04E0CBE0 ∧ 1 < t11State.par.vl.elements := by decide

/-- `StepRunsTheDecodedInstruction`: a legal program and the four bytes of `SQDECD Z0.D` (R42) at `pc`. -/
theorem witness_step_bytes :
    t11State.par.legal = true ∧ t11State.pcOffset % 4 = 0 ∧
    Memory.read t11State.memory t11State.pc.toNat = some 0xE0 ∧ Memory.read t11State.memory (t11State.pc.toNat + 1) = some 0xCB ∧
    Memory.read t11State.memory (t11State.pc.toNat + 2) = some 0xE0 ∧
    Memory.read t11State.memory (t11State.pc.toNat + 3) = some 0x04 ∧
    decodeBytes [0xE0, 0xCB, 0xE0, 0x04] = .ok (.sqdecdVector 0 0b11111#5 0, []) := by decide

/-- `StepCompletesExactlyOnAReadyMatchingWord`: R132's conditions, met at a program that ends at the very top of the address
space (R133). -/
theorem witness_r132 :
    (State.start { t11State.par with base := 0xFFFFFFFFFFFFFFFC } t11State.z).sveReady ∧
    (0xFFFFFFFFFFFFFFFC#64).toNat % 4 = 0 ∧ (0xFFFFFFFFFFFFFFFC#64).toNat + 4 * t11State.par.prog.length ≤ 2 ^ 64 ∧
    t11State.par.prog[0]? = some 0x04E0CBE0 ∧ 0xFFFFFFFFFFFFFFFC = 0xFFFFFFFFFFFFFFFC#64 + BitVec.ofNat 64 (4 * 0) ∧
    0x04E0CBE0#32 &&& 0xFFF0FC00#32 = 0x04E0C800#32 := by decide

/-- `MisplacedProgramIsNeverFetched`: `base = pc = 2`, a program past the top of the address space, and a legal program with `pc`
two bytes into a word of it; nothing is fetched in any of them (R43, R133; log 8). -/
theorem witness_misplaced :
    (State.start { t11State.par with base := 2 } t11State.z).par.legal = false ∧
    (State.start { t11State.par with base := 2 } t11State.z).fetch = .nothing ∧
    (State.start { t11State.par with base := 0xFFFFFFFFFFFFFFFC, prog := [0, 0] } t11State.z).par.legal = false ∧
    ({ t11State with pc := 0x1002 }.par.legal = true ∧ { t11State with pc := 0x1002 }.pc.toNat % 4 ≠ 0) ∧
    { t11State with pc := 0x1002 }.fetch = .nothing := by decide

/-- `ReasonsOfFaultAndRefusal`, `StepHasOneOfFourOutcomes`: a state of a run for each reason of R125, and one that is final. -/
theorem witness_reasons :
    specStep (testState 0 false .enabled [0x04E0CBE0] 0 [7, 7]) = some (.fault .undefinedInstruction) ∧
    specStep (testState 0 true .trapped [0x04E0CBE0] 0 [7, 7]) = some (.fault .sveAccessTrap) ∧
    specStep (testState 0 true .enabled [0xD503201F] 0 []) = some (.refused (.notInSpec 0xD503201F)) ∧
    specStep t11Next = some .final ∧
    (testState 0 true .enabled [0xD503201F] 0 []).Inv ∧
    4 * (testState 0 true .enabled [0xD503201F] 0 []).par.prog.length < 2 ^ 64 := by decide

/-- `PlacedWordRunsNext`: an aligned `pc`, as every run has it. -/
theorem witness_placed : State.reset.pc.toNat % 4 = 0 ∧ t11State.pc.toNat % 4 = 0 := by decide

/-- `RunEndsOneWordPastTheProgram`, `ProgramCounterIsAligned`: a state at a word and a state at the end, where the program ends at
the very top of the address space (R133, R25) and elsewhere; an empty program is final at once (T11). -/
theorem witness_end :
    (t11State.Inv ∧ 4 * t11State.par.prog.length < 2 ^ 64 ∧ ¬ t11State.isFinal) ∧
    (t11Next.Inv ∧ 4 * t11Next.par.prog.length < 2 ^ 64 ∧ t11Next.isFinal) ∧
    ((State.start { t11State.par with base := 0xFFFFFFFFFFFFFFFC } t11State.z).advancePc.Inv ∧
      (State.start { t11State.par with base := 0xFFFFFFFFFFFFFFFC } t11State.z).advancePc.isFinal) ∧
    State.reset.isFinal := by decide

/-- `RunsAreBoundedByTheProgram`: a run of one step, which is as long as the program. -/
theorem witness_run :
    t11State.Inv ∧ 4 * t11State.par.prog.length < 2 ^ 64 ∧ Sys2Proof.core.run 1 t11State = .next t11Next :=
  ⟨by decide, by decide, by
    show (match step t11State with | .next u => Host.Outcome.next u | .fault r => .fault r | .refused r => .refused r) = _
    rw [witness_step.2]
    rfl⟩

/-- `StartStatesMeetTheInvariant`: legal parameters with a program. -/
theorem witness_start : t11State.par.legal = true := by decide

/-- `PatternTable`, `OmittedOperandsHaveDefaults`, `IllFormedInputIsRefusedByName`, `CanonicalSpelling`: operands at the ends of
the ranges of each clause. -/
theorem witness_assembler :
    (14 ≤ (14#5).toNat ∧ (28#5).toNat ≤ 28 ∧ 31 ≤ 31) ∧ (PatSym.uimm5 31).inRange = true ∧
    ((0 : Nat) = 0 ∨ 17 ≤ 0) ∧ (17 = 0 ∨ 17 ≤ 17) ∧ 32 ≤ 32 ∧ ('S' ≠ 'D') ∧
    ¬ (192 % 128 = 0 ∧ 128 ≤ 192 ∧ 192 ≤ 2048) ∧ (0b0001#4 ≠ 0b0000#4) ∧ (0b11110#5 ≠ 0b11111#5) := by decide

end Sys2Proof.Machine
end

/-! Proofs of the family `00_scope.md`: the saturation and element primitives, the outcomes of a step, and the word a step runs. -/

namespace Sys2Proof.Machine

/-! ### Saturation (R14) -/

/-- The range that `SatQ` clamps to is not empty, so that its two clamps exclude each other. -/
theorem satLo_le_satHi (n : Nat) (unsigned : Bool) : satLo n unsigned ≤ satHi n unsigned := by
  have hs : (0 : Int) < 2 ^ (n - 1) := by positivity
  have hu : (0 : Int) < 2 ^ n := by positivity
  cases unsigned with
  | false => show -(2 ^ (n - 1)) ≤ (2 ^ (n - 1) - 1 : Int); omega
  | true => show 0 ≤ (2 ^ n - 1 : Int); omega

theorem satQ_of_satHi_lt {i : Int} {n : Nat} {unsigned : Bool} (h : satHi n unsigned < i) :
    satQ i n unsigned = (BitVec.ofInt n (satHi n unsigned), true) := if_pos h

theorem satQ_of_lt_satLo {i : Int} {n : Nat} {unsigned : Bool} (h : i < satLo n unsigned) :
    satQ i n unsigned = (BitVec.ofInt n (satLo n unsigned), true) := by
  have hle := satLo_le_satHi n unsigned
  rw [satQ, if_neg (by omega), if_pos h]

theorem satQ_of_mem_range {i : Int} {n : Nat} {unsigned : Bool} (hlo : satLo n unsigned ≤ i)
    (hhi : i ≤ satHi n unsigned) : satQ i n unsigned = (BitVec.ofInt n i, false) := by
  rw [satQ, if_neg (by omega), if_neg (by omega)]

/-- The `n`-bit encoding of an integer, read as unsigned, is the integer modulo `2^n`. -/
theorem natCast_toNat_ofInt (n : Nat) (i : Int) : ((BitVec.ofInt n i).toNat : Int) = i % 2 ^ n := by
  rw [BitVec.toNat_ofInt, Int.toNat_of_nonneg (Int.emod_nonneg _ (by positivity)), Nat.cast_pow, Nat.cast_ofNat]

/-- Signed saturation (R14): the greatest value, the least value, or the encoding of `i` itself, with its flag. -/
theorem satQ_signed_cases (i : Int) (n : Nat) (hn : 0 < n) :
    (2 ^ (n - 1) - 1 < i → (satQ i n false).1.toInt = 2 ^ (n - 1) - 1 ∧ (satQ i n false).2 = true) ∧
    (i < -(2 ^ (n - 1)) → (satQ i n false).1.toInt = -(2 ^ (n - 1)) ∧ (satQ i n false).2 = true) ∧
    (-(2 ^ (n - 1)) ≤ i → i ≤ 2 ^ (n - 1) - 1 → (satQ i n false).1.toInt = i ∧
      ((satQ i n false).1.toNat : Int) = i % 2 ^ n ∧ (satQ i n false).2 = false) := by
  have hp : (0 : Int) < 2 ^ (n - 1) := by positivity
  have hv := toInt_satQ_signed i n hn
  refine ⟨fun h => ⟨by omega, ?_⟩, fun h => ⟨by omega, ?_⟩, fun hlo hhi => ⟨by omega, ?_⟩⟩
  · rw [satQ_of_satHi_lt (unsigned := false) h]
  · rw [satQ_of_lt_satLo (unsigned := false) h]
  · rw [satQ_of_mem_range (unsigned := false) hlo hhi]
    exact ⟨natCast_toNat_ofInt n i, rfl⟩

/-- Unsigned saturation (R14): the same with the bounds 0 and `2^n - 1`. -/
theorem satQ_unsigned_cases (i : Int) (n : Nat) :
    (2 ^ n - 1 < i → ((satQ i n true).1.toNat : Int) = 2 ^ n - 1 ∧ (satQ i n true).2 = true) ∧
    (i < 0 → (satQ i n true).1.toNat = 0 ∧ (satQ i n true).2 = true) ∧
    (0 ≤ i → i ≤ 2 ^ n - 1 → ((satQ i n true).1.toNat : Int) = i ∧ (satQ i n true).2 = false) := by
  have hp : (0 : Int) < 2 ^ n := by positivity
  have key : ∀ j : Int, 0 ≤ j → j ≤ 2 ^ n - 1 → ((BitVec.ofInt n j).toNat : Int) = j := fun j h1 h2 => by
    rw [natCast_toNat_ofInt, Int.emod_eq_of_lt h1 (by omega)]
  refine ⟨fun h => ?_, fun h => ?_, fun hlo hhi => ?_⟩
  · rw [satQ_of_satHi_lt (unsigned := true) h]
    exact ⟨key (2 ^ n - 1) (by omega) (by omega), rfl⟩
  · rw [satQ_of_lt_satLo (unsigned := true) h]
    exact ⟨by exact_mod_cast key 0 (by omega) (by omega), rfl⟩
  · rw [satQ_of_mem_range (unsigned := true) hlo hhi]
    exact ⟨key i hlo hhi, rfl⟩

/-- Settles O8: the signed and the unsigned clamp, and the encodings of the two bounds of 64 bits. -/
theorem saturationClampsToRange : Obligations.SaturationClampsToRange := by
  unfold Obligations.SaturationClampsToRange
  refine ⟨fun i n hn => ⟨satQ_signed_cases i n hn, satQ_unsigned_cases i n⟩, fun i h => ?_, fun i h => ?_⟩
  · rw [satQ_of_lt_satLo (unsigned := false) h]
    decide
  · rw [satQ_of_satHi_lt (unsigned := false) h]
    decide

/-! ### Elements of a register (R13) -/

/-- Settles O9: each clause from the bits of the element read and of the register written. -/
theorem elementAccessIsASlice : Obligations.ElementAccessIsASlice := by
  unfold Obligations.ElementAccessIsASlice
  intro n size e v x hs hn
  have hmul : (e + 1) * size = e * size + size := Nat.succ_mul e size
  refine ⟨fun k hk => ?_, fun k hk => ?_, fun k hk => ?_, elemGet_elemSet_same v e size x hn, ?_⟩
  · rw [getLsbD_elemGet, decide_eq_true hk, Bool.true_and]
  · have hin : e * size + k < n := by omega
    rw [getLsbD_elemSet, if_pos ⟨by omega, by omega⟩, Nat.add_sub_cancel_left, decide_eq_true hin, Bool.true_and]
  · have hout : ¬ (e * size ≤ k ∧ k < e * size + size) := by omega
    rw [getLsbD_elemSet, if_neg hout]
    by_cases hkn : k < n
    · simp [hkn]
    · simp [BitVec.getLsbD_of_ge v k (by omega)]
  · apply BitVec.eq_of_getLsbD_eq
    intro k hk
    rw [getLsbD_elemGet, BitVec.getLsbD_setWidth, Nat.zero_mul, Nat.zero_add]

/-! ### What a step does with what it fetches (R18, R41, R62) -/

theorem step_of_decode_instr {s : State} {w : Word} {i : Instr} (hf : s.fetch = .word w) (hd : decode w = .instr i) :
    step s = exec i s := by
  simp only [step, hf, hd]

theorem step_of_decode_notInSpec {s : State} {w v : Word} (hf : s.fetch = .word w) (hd : decode w = .notInSpec v) :
    step s = .refused (.unspecified (.notInSpec v)) := by
  simp only [step, hf, hd]

theorem step_of_programEnd {s : State} (hf : s.fetch = .programEnd) : step s = .fault .endOfProgram := by
  simp only [step, hf]

/-- The four bytes at an address are the word that is read there (R42). -/
theorem readWord_of_read {m : Memory} {a : Nat} {b0 b1 b2 b3 : Byte} (h0 : Memory.read m a = some b0)
    (h1 : Memory.read m (a + 1) = some b1) (h2 : Memory.read m (a + 2) = some b2)
    (h3 : Memory.read m (a + 3) = some b3) : Memory.readWord m a = some (wordOfBytes b0 b1 b2 b3) := by
  simp only [Memory.readWord, h0, h1, h2, h3]

/-- In a legal place the word that memory holds at a word-aligned `pc` is fetched (R41). -/
theorem fetch_of_readWord {s : State} {w : Word} (hl : s.par.legal = true) (h4 : s.pcOffset % 4 = 0)
    (hw : s.memory.readWord s.pc.toNat = some w) : s.fetch = .word w := by
  simp only [State.fetch, hl, h4, hw, if_true]

/-- Four bytes that decode are the bytes of a word that decodes to the same instruction (R66). -/
theorem decode_of_decodeBytes {b0 b1 b2 b3 : Byte} {i : Instr} {rest : List Byte}
    (h : decodeBytes [b0, b1, b2, b3] = .ok (i, rest)) : decode (wordOfBytes b0 b1 b2 b3) = .instr i := by
  cases hd : decode (wordOfBytes b0 b1 b2 b3) <;> simp_all [decodeBytes]

/-- Settles O30: the four bytes are the word fetched, and the step executes what it decodes to. -/
theorem stepRunsTheDecodedInstruction : Obligations.StepRunsTheDecodedInstruction := by
  unfold Obligations.StepRunsTheDecodedInstruction
  intro s i b0 b1 b2 b3 hl h4 h0 h1 h2 h3 hd
  have hf := fetch_of_readWord hl h4 (readWord_of_read h0 h1 h2 h3)
  exact step_of_decode_instr hf (decode_of_decodeBytes hd)

/-! ### The outcomes of a step of a run (R18, R125, R133) -/

/-- In a state of a run `pc` does not stand below `base`: its offset does not wrap around the top of the address space. -/
theorem base_le_pc_of_inv {s : State} (h : s.Inv) (hlt : s.pcOffset < 4 * s.par.prog.length) :
    s.par.base.toNat ≤ s.pc.toNat := by
  obtain ⟨hl, -, -⟩ := h
  obtain ⟨-, htop⟩ := (legal_iff _).mp hl
  have hpc := s.pc.isLt
  have hoff : s.pcOffset = (2 ^ 64 - s.par.base.toNat + s.pc.toNat) % 2 ^ 64 := BitVec.toNat_sub ..
  omega

/-- A state is final where `pc` is the program's length from `base` (R133; log 10: modulo `2^64`). -/
theorem isFinal_iff_pcOffset {s : State} (hlen : 4 * s.par.prog.length < 2 ^ 64) :
    s.isFinal ↔ s.pcOffset = 4 * s.par.prog.length := by
  unfold State.isFinal State.endAddr State.pcOffset
  bv_omega

/-- In a state of a run the fetch finds a word of the program, or its end, and the end exactly in a final state. -/
theorem fetch_of_inv {s : State} (h : s.Inv) (hlen : 4 * s.par.prog.length < 2 ^ 64) :
    (¬ s.isFinal ∧ ∃ w, s.fetch = .word w) ∨ (s.isFinal ∧ s.fetch = .programEnd) := by
  have ⟨hl, h4, hle⟩ := h
  rw [isFinal_iff_pcOffset hlen]
  by_cases hend : s.pcOffset = 4 * s.par.prog.length
  · have hpc : s.pc = s.endAddr := (isFinal_iff_pcOffset hlen).mpr hend
    have hnone : s.par.prog[s.pcOffset / 4]? = none := List.getElem?_eq_none (by omega)
    exact .inr ⟨hend, by simp [fetch_eq, hl, hnone, hpc]⟩
  · have hlt : s.pcOffset / 4 < s.par.prog.length := by omega
    exact .inl ⟨hend, _, fetch_of_word hl (base_le_pc_of_inv h (by omega)) h4 (List.getElem?_eq_getElem hlt)⟩

/-- An instruction completes or raises one of the two exceptions; none is refused (R110, R126). -/
theorem exec_outcomes (i : Instr) (s : State) :
    (∃ t, exec i s = .next t) ∨ exec i s = .fault (.exception .undefinedInstruction) ∨
      exec i s = .fault (.exception .sveAccessTrap) := by
  cases i with
  | sqdecdVector imm4 pattern zdn =>
    rw [exec_sqdecd_cases]
    cases s.par.haveSve <;> cases s.par.sveAccess <;> simp

/-- All that a step can answer on a fetched word (R18, R62, R125). -/
theorem step_outcomes_of_word {s : State} {w : Word} (hf : s.fetch = .word w) :
    (∃ t, step s = .next t) ∨ step s = .fault (.exception .undefinedInstruction) ∨
      step s = .fault (.exception .sveAccessTrap) ∨
      (w &&& 0xFFF0FC00#32 ≠ 0x04E0C800#32 ∧ step s = .refused (.unspecified (.notInSpec w))) := by
  cases hm : isSqdecd w with
  | true =>
    rw [step_of_decode_instr hf (decode_of_match hm)]
    rcases exec_outcomes _ s with h | h | h
    · exact .inl h
    · exact .inr (.inl h)
    · exact .inr (.inr (.inl h))
  | false =>
    have hne : w &&& 0xFFF0FC00#32 ≠ 0x04E0C800#32 := beq_eq_false_iff_ne.mp hm
    exact .inr (.inr (.inr ⟨hne, step_of_decode_notInSpec hf (decode_of_not_match hm)⟩))

/-- Settles O35: a step of a run fetches a word or the end, and answers on each as the rules have it. -/
theorem stepHasOneOfTheSpecOutcomes : Obligations.StepHasOneOfTheSpecOutcomes := by
  unfold Obligations.StepHasOneOfTheSpecOutcomes
  intro s hinv hlen
  rcases fetch_of_inv hinv hlen with ⟨-, w, hf⟩ | ⟨hfin, hf⟩
  · rcases step_outcomes_of_word hf with h | h | h | ⟨hne, h⟩
    · exact .inl h
    · exact .inr (.inl h)
    · exact .inr (.inr (.inl h))
    · exact .inr (.inr (.inr (.inl ⟨w, hf, hne, h⟩)))
  · exact .inr (.inr (.inr (.inr ⟨hfin, step_of_programEnd hf⟩)))

/-- On a fetched word the step has an outcome of the spec, and it is not `Final` (R18). -/
theorem specStep_of_word {s : State} {w : Word} (hf : s.fetch = .word w) : ∃ o, specStep s = some o ∧ o ≠ .final := by
  unfold specStep
  rcases step_outcomes_of_word hf with ⟨t, h⟩ | h | h | ⟨-, h⟩ <;> rw [h] <;> exact ⟨_, rfl, nofun⟩

/-- At the end of the program the step's outcome is `Final` (R133). -/
theorem specStep_of_programEnd {s : State} (hf : s.fetch = .programEnd) : specStep s = some .final := by
  rw [specStep, step_of_programEnd hf]
  rfl

/-- Settles O34: `Final` where the fetch finds the end, which is where the state is final, and another outcome on a word. -/
theorem stepHasOneOfFourOutcomes : Obligations.StepHasOneOfFourOutcomes := by
  unfold Obligations.StepHasOneOfFourOutcomes
  intro s hinv hlen
  rcases fetch_of_inv hinv hlen with ⟨hnot, w, hf⟩ | ⟨hfin, hf⟩
  · obtain ⟨o, ho, hne⟩ := specStep_of_word hf
    exact ⟨o, ho, iff_of_false hne hnot⟩
  · exact ⟨.final, specStep_of_programEnd hf, iff_of_true rfl hfin⟩

/-! ### Placing a word where the next step fetches it (log 5) -/

/-- A 32-bit word is the table word of its own bits. -/
@[simp] theorem tableWord_toNat (w : Word) : tableWord 32 w.toNat = w := by
  rw [tableWord, Nat.mod_eq_of_lt w.isLt, BitVec.ofNat_toNat, BitVec.setWidth_eq]

@[simp] theorem withFetchWord_toNat (s : State) (w : Word) : s.withFetchWord 32 w.toNat = s.placeWord w := by
  rw [State.withFetchWord, tableWord_toNat]

@[simp] theorem placeWord_pc (s : State) (w : Word) : (s.placeWord w).pc = s.alignPc.pc := rfl

@[simp] theorem placeWord_vl (s : State) (w : Word) : (s.placeWord w).par.vl = s.par.vl := rfl

@[simp] theorem placeWord_haveSve (s : State) (w : Word) : (s.placeWord w).par.haveSve = s.par.haveSve := rfl

@[simp] theorem placeWord_sveAccess (s : State) (w : Word) : (s.placeWord w).par.sveAccess = s.par.sveAccess := rfl

/-- The registers keep their values; both sides have the same width, by `placeWord_vl`. -/
theorem placeWord_readZ (s : State) (w : Word) (m : Fin 32) : (s.placeWord w).readZ m = s.readZ m := rfl

/-- Settles O42: the word placed is fetched, so the program stands legally, and the step follows the word's decoding. -/
theorem placedWordRunsNext : Obligations.PlacedWordRunsNext := by
  unfold Obligations.PlacedWordRunsNext
  intro s w
  have hf := fetch_placeWord s w
  obtain ⟨hlegal, -, -, -⟩ := fetch_word hf
  rw [withFetchWord_toNat]
  refine ⟨hf, ?_, alignPc_pc_of_aligned, hlegal, placeWord_vl s w, placeWord_haveSve s w, placeWord_sveAccess s w,
    fun m => congrArg BitVec.toNat (placeWord_readZ s w m)⟩
  cases hd : decode w with
  | instr i => exact step_of_decode_instr hf hd
  | notInSpec v => exact step_of_decode_notInSpec hf hd

end Sys2Proof.Machine

/-! Proofs of the family `10_state.md`: what a completed step changes, and the invariant of a run. -/

namespace Sys2Proof.Machine

/-! ### The frame of a completed step (R20, R25, R30, R31) -/

/-- Every other register keeps all its bits (R31); both sides have the same width, by `decremented_par`. -/
theorem readZ_decremented_other (s : State) (imm4 : BitVec 4) (pattern zdn : BitVec 5) {m : Fin 32}
    (h : m ≠ regNumber zdn) : (s.decremented imm4 pattern zdn).readZ m = s.readZ m := by
  unfold State.decremented
  rw [advancePc_readZ]
  exact readZ_writeZ_other s _ h

/-- Settles O14: the next state is the decremented one, by the inversion of `exec`. -/
theorem sqdecdChangesOnlyItsRegisterAndPc : Obligations.SqdecdChangesOnlyItsRegisterAndPc := by
  unfold Obligations.SqdecdChangesOnlyItsRegisterAndPc
  intro s t imm4 pattern zdn h
  obtain ⟨_, _, _, hi, -, -, rfl⟩ := exec_next h
  cases hi
  exact ⟨fun m hm => congrArg BitVec.toNat (readZ_decremented_other s imm4 pattern zdn hm),
    decremented_par .., fun a => by rw [decremented_memory]⟩

/-- Settles O41: a completed step is a decrement, and the one register it may change is that decrement's destination. -/
theorem everyStepChangesAtMostOneRegister : Obligations.EveryStepChangesAtMostOneRegister := by
  unfold Obligations.EveryStepChangesAtMostOneRegister
  intro s t h
  obtain ⟨w, imm4, pattern, zdn, -, -, -, -, rfl⟩ := step_next h
  exact ⟨decremented_par .., decremented_pc .., fun a => by rw [decremented_memory],
    regNumber zdn, fun m hm => congrArg BitVec.toNat (readZ_decremented_other s imm4 pattern zdn hm)⟩

/-! ### The invariant of a run (R25, R41, R43) -/

@[simp] theorem start_pcOffset (par : Params) (z : Vector (BitVec par.vl.bits) 32) :
    (State.start par z).pcOffset = 0 := by
  simp [State.pcOffset]

/-- A completed instruction moves `pc` four bytes on from `base`, modulo `2^64` (R25). -/
theorem decremented_pcOffset (s : State) (imm4 : BitVec 4) (pattern zdn : BitVec 5) :
    (s.decremented imm4 pattern zdn).pcOffset = (s.pcOffset + 4) % 2 ^ 64 := by
  unfold State.pcOffset
  rw [decremented_pc, decremented_par]
  bv_omega

/-- The whole of a fetched word stands inside the program (R41). -/
theorem pcOffset_add_four_le_of_fetch_word {s : State} {w : Word} (h : s.fetch = .word w) :
    s.pcOffset + 4 ≤ 4 * s.par.prog.length := by
  obtain ⟨-, -, h4, hw⟩ := fetch_word h
  obtain ⟨hlt, -⟩ := List.getElem?_eq_some_iff.mp hw
  omega

/-- The instruction of a fetched word leaves the machine in a state of a run. A program that fills the whole address space
ends where it begins, so that `pc` may wrap to `base` here (log 10). -/
theorem inv_decremented_of_fetch_word {s : State} {w : Word} (hf : s.fetch = .word w) (imm4 : BitVec 4)
    (pattern zdn : BitVec 5) : (s.decremented imm4 pattern zdn).Inv := by
  obtain ⟨hl, -, h4, -⟩ := fetch_word hf
  have hle := pcOffset_add_four_le_of_fetch_word hf
  refine ⟨hl, ?_, ?_⟩
  · rw [decremented_pcOffset]; omega
  · rw [decremented_pcOffset, decremented_par]; omega

/-- Settles O38: a step that completes has fetched a word of the program and decremented. -/
theorem everyStepKeepsTheInvariant : Obligations.EveryStepKeepsTheInvariant := by
  unfold Obligations.EveryStepKeepsTheInvariant
  intro s t _ h
  obtain ⟨w, imm4, pattern, zdn, hf, -, -, -, rfl⟩ := step_next h
  exact inv_decremented_of_fetch_word hf imm4 pattern zdn

/-- A run starts in a state that meets the invariant (R33, R34). -/
theorem inv_start {par : Params} (h : par.legal = true) (z : Vector (BitVec par.vl.bits) 32) :
    (State.start par z).Inv := by
  refine ⟨h, ?_, ?_⟩ <;> simp

/-- The empty program at `base` 0 that reset loads stands legally (log 5). -/
theorem reset_legal : Params.reset.legal = true :=
  (legal_iff _).mpr ⟨by decide, by decide⟩

/-- Settles O39: `pc` starts at `base`, at the offset 0; reset is such a start. -/
theorem startStatesMeetTheInvariant : Obligations.StartStatesMeetTheInvariant := by
  unfold Obligations.StartStatesMeetTheInvariant
  exact ⟨fun par z h => ⟨inv_start h z, start_pc par z⟩, inv_start reset_legal _, start_pc _ _⟩

/-- Settles O40: `base` and the offset of `pc` are multiples of 4, and so is their sum modulo `2^64`. -/
theorem programCounterIsAligned : Obligations.ProgramCounterIsAligned := by
  unfold Obligations.ProgramCounterIsAligned
  intro s ⟨hl, h4, _⟩
  obtain ⟨hbase, -⟩ := (legal_iff _).mp hl
  have hoff : s.pcOffset = (2 ^ 64 - s.par.base.toNat + s.pc.toNat) % 2 ^ 64 := BitVec.toNat_sub ..
  omega

end Sys2Proof.Machine

/-! Proofs of the family `20_memory.md`: the bytes of the program text, the fetch in it, and what reads none of it. -/

namespace Sys2Proof.Machine

/-! ### The bytes of the program text (R41, R42, R45) -/

/-- Byte `k` of word `i` of the program stands at `base + 4 * i + k` (R42). -/
theorem read_memory_of_word {s : State} {i : Nat} {w : Word} (hw : s.par.prog[i]? = some w) {k : Nat} (hk : k < 4) :
    Memory.read s.memory (s.par.base.toNat + 4 * i + k) = some (w.extractLsb' (8 * k) 8) :=
  (read_programText _ _ i k hk).trans (congrArg _ hw)

/-- Settles O27: the four bytes of a word by their index; the example by evaluation. -/
theorem instructionBytesAreLittleEndian : Obligations.InstructionBytesAreLittleEndian := by
  unfold Obligations.InstructionBytesAreLittleEndian
  refine ⟨fun s i w hw => ⟨?_, ?_, ?_, ?_⟩, by decide⟩
  · exact read_memory_of_word hw (k := 0) (by decide)
  · exact read_memory_of_word hw (k := 1) (by decide)
  · exact read_memory_of_word hw (k := 2) (by decide)
  · exact read_memory_of_word hw (k := 3) (by decide)

/-- The program text lists exactly the addresses of its bytes: at or above its start, an address is one of the four of the
word with the index `(x - a) / 4`, whether or not the program has that word (R45). -/
theorem read_programText_ne_none_iff (a : Nat) (ws : List Word) (x : Nat) :
    Memory.read (programText a ws) x ≠ none ↔ a ≤ x ∧ x < a + 4 * ws.length := by
  by_cases hx : x < a
  · have hnot : ¬ (a ≤ x ∧ x < a + 4 * ws.length) := by omega
    exact iff_of_false (not_not_intro (read_programText_below a ws x hx)) hnot
  · have hsplit : x = a + 4 * ((x - a) / 4) + (x - a) % 4 := by omega
    have hread := read_programText a ws ((x - a) / 4) ((x - a) % 4) (Nat.mod_lt _ (by decide))
    rw [← hsplit] at hread
    rw [hread, Ne, Option.map_eq_none_iff, List.getElem?_eq_none_iff]
    omega

/-- Settles O28: the address space of a state is its program text at `base`. -/
theorem onlyTheProgramTextExists : Obligations.OnlyTheProgramTextExists := by
  unfold Obligations.OnlyTheProgramTextExists
  exact fun s => ⟨memory_wf s, fun a => read_programText_ne_none_iff _ _ a⟩

/-! ### The fetch in the program text (R41, R42, R43) -/

/-- In a legal program the address of word `i` does not wrap around the top of the address space (R133). -/
theorem toNat_wordAddr {p : Params} (hl : p.legal = true) {i : Nat} (hi : i < p.prog.length) :
    (p.base + BitVec.ofNat 64 (4 * i)).toNat = p.base.toNat + 4 * i := by
  obtain ⟨-, htop⟩ := (legal_iff p).mp hl
  rw [BitVec.toNat_add, BitVec.toNat_ofNat]
  omega

/-- Settles O29: at the word's address memory reads the word, so the fetch finds it. -/
theorem fetchReadsTheProgram : Obligations.FetchReadsTheProgram := by
  unfold Obligations.FetchReadsTheProgram
  intro s i w hl hw hpc
  obtain ⟨hi, -⟩ := List.getElem?_eq_some_iff.mp hw
  have haddr : s.pc.toNat = s.par.base.toNat + 4 * i := by rw [hpc, toNat_wordAddr hl hi]
  have hoff : s.pcOffset = 4 * i := by
    have := pc_eq_base_add_offset s (by omega)
    omega
  have hread : s.memory.readWord s.pc.toNat = some w := by
    rw [haddr, ← hw]
    exact readWord_programText ..
  exact ⟨fetch_of_readWord hl (by omega) hread, hread⟩

/-- The fetch finds the end only of a legal program, and only at its end (R133). -/
theorem fetch_programEnd {s : State} (h : s.fetch = .programEnd) : s.par.legal = true ∧ s.isFinal := by
  rw [fetch_eq] at h
  split at h
  case isTrue hl =>
    split at h
    case h_1 => cases h
    case h_2 =>
      split at h
      case isTrue hend => exact ⟨hl, hend⟩
      case isFalse => cases h
  case isFalse => cases h

/-- A word is fetched only in a state of a run (R8, R41). -/
theorem inv_of_fetch_word {s : State} {w : Word} (h : s.fetch = .word w) : s.Inv := by
  obtain ⟨hl, -, h4, -⟩ := fetch_word h
  have hle := pcOffset_add_four_le_of_fetch_word h
  exact ⟨hl, h4, by omega⟩

/-- A final state of a legal program is a state of a run. The offset of the end is the program's length modulo `2^64`
(log 10), which is a multiple of 4 and not above it. -/
theorem inv_of_isFinal {s : State} (hl : s.par.legal = true) (hend : s.isFinal) : s.Inv := by
  have hoff : s.pcOffset = 4 * s.par.prog.length % 2 ^ 64 := by
    rw [State.pcOffset, hend, State.endAddr, add_sub_cancel_left, BitVec.toNat_ofNat]
  refine ⟨hl, ?_, ?_⟩ <;> omega

/-- Outside the states of a run the fetch finds nothing (log 8). -/
theorem fetch_of_not_inv {s : State} (h : ¬ s.Inv) : s.fetch = .nothing := by
  cases hf : s.fetch with
  | word w => exact absurd (inv_of_fetch_word hf) h
  | programEnd =>
    obtain ⟨hl, hend⟩ := fetch_programEnd hf
    exact absurd (inv_of_isFinal hl hend) h
  | nothing => rfl

theorem step_of_nothing {s : State} (hf : s.fetch = .nothing) : step s = .fault .noInstructionAtPc := by
  simp only [step, hf]

/-- Settles O32: a misplaced program and a misaligned `pc` are outside the states of a run, the latter because `pc` is aligned
in every one of them. -/
theorem misplacedProgramIsNeverFetched : Obligations.MisplacedProgramIsNeverFetched := by
  unfold Obligations.MisplacedProgramIsNeverFetched
  refine ⟨fun s hl => ?_, fun s hpc => ?_⟩
  · have hf := fetch_of_not_legal hl
    exact ⟨hf, step_of_nothing hf⟩
  · have hf : s.fetch = .nothing := fetch_of_not_inv fun hinv => hpc (programCounterIsAligned s hinv)
    exact ⟨hf, step_of_nothing hf⟩

/-! ### The instruction reads no memory (R40, R50) -/

/-- Decrementing commutes with replacing the program: it looks at the registers and the vector length alone. -/
theorem decremented_withProgram (s : State) (imm4 : BitVec 4) (pattern zdn : BitVec 5) (prog : List Word) (base : Addr) :
    (s.withProgram prog base).decremented imm4 pattern zdn = (s.decremented imm4 pattern zdn).withProgram prog base := rfl

/-- Settles O24: both checks look at parameters that the replacement keeps, and the decrement commutes with it. -/
theorem sqdecdDoesNotReadMemory : Obligations.SqdecdDoesNotReadMemory := by
  unfold Obligations.SqdecdDoesNotReadMemory
  intro s imm4 pattern zdn prog base
  rw [exec_sqdecd_cases, exec_sqdecd_cases, withProgram_haveSve, withProgram_sveAccess, decremented_withProgram]
  cases s.par.haveSve with
  | false => rfl
  | true => cases s.par.sveAccess <;> rfl

end Sys2Proof.Machine

/-! Proofs of the family `30_encoding.md`: the decoder, the encoder, and the text of an instruction. -/

namespace Sys2Proof

open Machine

/-! ### Bit fields of a word: each is an element in the sense of R13 (`imm4` is `Elem[w, 4, 4]`, `pattern` is `Elem[w, 1, 5]`,
`Zdn` is `Elem[w, 0, 5]`), so that setting a field is `elemSet` -/

/-- Equal slices agree on their bits. -/
theorem getLsbD_eq_of_extractLsb'_eq {n start len k : Nat} {v w : BitVec n}
    (h : v.extractLsb' start len = w.extractLsb' start len) (hlo : start ≤ k) (hhi : k < start + len) :
    v.getLsbD k = w.getLsbD k := by
  have hbit := congrArg (fun x => x.getLsbD (k - start)) h
  have hlt : k - start < len := by omega
  simpa [hlt, Nat.add_sub_cancel' hlo] using hbit

/-- A slice that does not meet the element written keeps its bits. -/
theorem extractLsb'_elemSet_of_disjoint {n : Nat} (v : BitVec n) (e size : Nat) (x : BitVec size) {start len : Nat}
    (h : start + len ≤ e * size ∨ e * size + size ≤ start) :
    (elemSet v e size x).extractLsb' start len = v.extractLsb' start len := by
  apply BitVec.eq_of_getLsbD_eq
  intro k hk
  have hout : ¬ (e * size ≤ start + k ∧ start + k < e * size + size) := by omega
  rw [BitVec.getLsbD_extractLsb', BitVec.getLsbD_extractLsb', getLsbD_elemSet, if_neg hout]
  by_cases hn : start + k < n
  · simp [hn]
  · simp [BitVec.getLsbD_of_ge v _ (Nat.not_lt.mp hn)]

/-- The bits of a zero element are zero. -/
theorem getLsbD_of_elemGet_eq_zero {n e size k : Nat} {v : BitVec n} (h : elemGet v e size = 0) (hlo : e * size ≤ k)
    (hhi : k < e * size + size) : v.getLsbD k = false := by
  have hz : v.extractLsb' (e * size) size = (0 : BitVec n).extractLsb' (e * size) size :=
    h.trans (BitVec.extractLsb'_zero).symm
  simpa using getLsbD_eq_of_extractLsb'_eq hz hlo hhi

/-- Writing an element that a mask leaves out does not change what the mask selects. -/
theorem elemSet_and_of_elemGet_eq_zero {n e size : Nat} (v : BitVec n) {m : BitVec n} (x : BitVec size)
    (h : elemGet m e size = 0) : elemSet v e size x &&& m = v &&& m := by
  apply BitVec.eq_of_getLsbD_eq
  intro k hk
  rw [BitVec.getLsbD_and, BitVec.getLsbD_and, getLsbD_elemSet]
  split
  · next hin => rw [getLsbD_of_elemGet_eq_zero h hin.1 hin.2, Bool.and_false, Bool.and_false]
  · simp [hk]

/-- Writing over a zero element is putting the value in by `OR`. -/
theorem elemSet_of_elemGet_eq_zero {n e size : Nat} {v : BitVec n} (x : BitVec size) (h : elemGet v e size = 0) :
    elemSet v e size x = v ||| (x.setWidth n <<< (e * size)) := by
  apply BitVec.eq_of_getLsbD_eq
  intro k hk
  rw [getLsbD_elemSet, BitVec.getLsbD_or, BitVec.getLsbD_shiftLeft, BitVec.getLsbD_setWidth]
  have hlt : k - e * size < n := by omega
  split
  · next hin =>
    rw [getLsbD_of_elemGet_eq_zero h hin.1 hin.2]
    simp [hk, hlt, Nat.not_lt.mpr hin.1]
  · next hout =>
    by_cases hlo : e * size ≤ k
    · have hx : x.getLsbD (k - e * size) = false := BitVec.getLsbD_of_ge x _ (by omega)
      simp [hk, hx]
    · simp [hk, Nat.lt_of_not_le hlo]

/-! ### The decoder on a matching word (R57, R62) -/

theorem isSqdecd_iff (w : Word) : isSqdecd w = true ↔ w &&& 0xFFF0FC00#32 = 0x04E0C800#32 := beq_iff_eq

theorem isSqdecd_eq_false_iff (w : Word) : isSqdecd w = false ↔ w &&& 0xFFF0FC00#32 ≠ 0x04E0C800#32 := beq_eq_false_iff_ne

/-- R57: the eighteen fixed bit positions. -/
theorem sqdecdMask_getLsbD : ∀ k, k < 32 → (sqdecdMask.getLsbD k = true ↔ 20 ≤ k ∨ (10 ≤ k ∧ k ≤ 15)) := by
  decide

/-- A word decodes to an instruction exactly where it matches and has the instruction's three fields. -/
theorem decode_eq_instr_iff {w : Word} {imm4 : BitVec 4} {pattern zdn : BitVec 5} :
    decode w = .instr (.sqdecdVector imm4 pattern zdn) ↔
      isSqdecd w = true ∧ fieldImm4 w = imm4 ∧ fieldPattern w = pattern ∧ fieldZdn w = zdn := by
  cases h : isSqdecd w with
  | true => simp [decode_of_match h]
  | false => simp [decode_of_not_match h]

theorem exists_decode_eq_instr_iff (w : Word) : (∃ i, decode w = .instr i) ↔ isSqdecd w = true := by
  cases h : isSqdecd w with
  | true => simp [decode_of_match h]
  | false => simp [decode_of_not_match h]

/-- The fixed bits and the three fields are the whole word (R56): the decoder is injective on the matching words. -/
theorem eq_of_decode_eq_instr {v w : Word} {i : Instr} (hv : decode v = .instr i) (hw : decode w = .instr i) : v = w := by
  obtain ⟨imm4, pattern, zdn⟩ := i
  obtain ⟨hvm, hvi, hvp, hvz⟩ := decode_eq_instr_iff.mp hv
  obtain ⟨hwm, hwi, hwp, hwz⟩ := decode_eq_instr_iff.mp hw
  have hmask : v &&& sqdecdMask = w &&& sqdecdMask := (beq_iff_eq.mp hvm).trans (beq_iff_eq.mp hwm).symm
  apply BitVec.eq_of_getLsbD_eq
  intro k hk
  by_cases hfixed : sqdecdMask.getLsbD k = true
  · simpa [hfixed] using congrArg (fun x => x.getLsbD k) hmask
  · rw [sqdecdMask_getLsbD k hk] at hfixed
    obtain hz | hp | hi : k < 5 ∨ (5 ≤ k ∧ k < 10) ∨ (16 ≤ k ∧ k < 20) := by omega
    · exact getLsbD_eq_of_extractLsb'_eq (hvz.trans hwz.symm) (Nat.zero_le k) (by omega)
    · exact getLsbD_eq_of_extractLsb'_eq (hvp.trans hwp.symm) hp.1 hp.2
    · exact getLsbD_eq_of_extractLsb'_eq (hvi.trans hwi.symm) hi.1 hi.2

/-! ### Setting a field of a matching word (R74) -/

theorem isSqdecd_elemSet {e size : Nat} (w : Word) (x : BitVec size) (h : elemGet sqdecdMask e size = 0) :
    isSqdecd (elemSet w e size x) = isSqdecd w := by
  rw [isSqdecd, isSqdecd, elemSet_and_of_elemGet_eq_zero w x h]

theorem decode_set_imm4 {w : Word} {imm4 : BitVec 4} {pattern zdn : BitVec 5}
    (h : decode w = .instr (.sqdecdVector imm4 pattern zdn)) (x : BitVec 4) :
    decode (elemSet w 4 4 x) = .instr (.sqdecdVector x pattern zdn) := by
  obtain ⟨hm, -, hp, hz⟩ := decode_eq_instr_iff.mp h
  exact decode_eq_instr_iff.mpr ⟨(isSqdecd_elemSet w x (by decide)).trans hm, elemGet_elemSet_same w 4 4 x (by decide),
    (extractLsb'_elemSet_of_disjoint w 4 4 x (by decide)).trans hp,
    (extractLsb'_elemSet_of_disjoint w 4 4 x (by decide)).trans hz⟩

theorem decode_set_pattern {w : Word} {imm4 : BitVec 4} {pattern zdn : BitVec 5}
    (h : decode w = .instr (.sqdecdVector imm4 pattern zdn)) (x : BitVec 5) :
    decode (elemSet w 1 5 x) = .instr (.sqdecdVector imm4 x zdn) := by
  obtain ⟨hm, hi, -, hz⟩ := decode_eq_instr_iff.mp h
  exact decode_eq_instr_iff.mpr ⟨(isSqdecd_elemSet w x (by decide)).trans hm,
    (extractLsb'_elemSet_of_disjoint w 1 5 x (by decide)).trans hi, elemGet_elemSet_same w 1 5 x (by decide),
    (extractLsb'_elemSet_of_disjoint w 1 5 x (by decide)).trans hz⟩

theorem decode_set_zdn {w : Word} {imm4 : BitVec 4} {pattern zdn : BitVec 5}
    (h : decode w = .instr (.sqdecdVector imm4 pattern zdn)) (x : BitVec 5) :
    decode (elemSet w 0 5 x) = .instr (.sqdecdVector imm4 pattern x) := by
  obtain ⟨hm, hi, hp, -⟩ := decode_eq_instr_iff.mp h
  exact decode_eq_instr_iff.mpr ⟨(isSqdecd_elemSet w x (by decide)).trans hm,
    (extractLsb'_elemSet_of_disjoint w 0 5 x (by decide)).trans hi,
    (extractLsb'_elemSet_of_disjoint w 0 5 x (by decide)).trans hp, elemGet_elemSet_same w 0 5 x (by decide)⟩

/-! ### The encoder and the decoder are inverse (R72) -/

/-- The word of an instruction is the match value with its three fields set (R56, R57). -/
theorem encode_eq_elemSet (imm4 : BitVec 4) (pattern zdn : BitVec 5) :
    encode (.sqdecdVector imm4 pattern zdn) =
      elemSet (elemSet (elemSet sqdecdMatch 4 4 imm4) 1 5 pattern) 0 5 zdn := by
  have hi : elemGet sqdecdMatch 4 4 = 0 := by decide
  have hp : elemGet (elemSet sqdecdMatch 4 4 imm4) 1 5 = 0 := extractLsb'_elemSet_of_disjoint _ 4 4 _ (by decide)
  have hz : elemGet (elemSet (elemSet sqdecdMatch 4 4 imm4) 1 5 pattern) 0 5 = 0 :=
    (elemGet_elemSet_other _ pattern (by decide)).trans (extractLsb'_elemSet_of_disjoint _ 4 4 _ (by decide))
  rw [encode_eq, elemSet_of_elemGet_eq_zero zdn hz, elemSet_of_elemGet_eq_zero pattern hp,
    elemSet_of_elemGet_eq_zero imm4 hi]
  simp only [Nat.zero_mul, BitVec.shiftLeft_zero]

/-- Decoding inverts encoding. -/
@[simp] theorem decode_encode (i : Instr) : decode (encode i) = .instr i := by
  obtain ⟨imm4, pattern, zdn⟩ := i
  have h0 : decode sqdecdMatch = .instr (.sqdecdVector 0 0 0) := by decide
  rw [encode_eq_elemSet]
  exact decode_set_zdn (decode_set_pattern (decode_set_imm4 h0 imm4) pattern) zdn

/-- Encoding inverts decoding. -/
theorem encode_of_decode {w : Word} {i : Instr} (h : decode w = .instr i) : encode i = w :=
  eq_of_decode_eq_instr (decode_encode i) h

theorem encode_injective : Function.Injective encode := fun i j h => by
  have hd : Decoded.instr i = .instr j := by rw [← decode_encode i, ← decode_encode j, h]
  injection hd

theorem isSqdecd_encode (i : Instr) : isSqdecd (encode i) = true :=
  (exists_decode_eq_instr_iff _).mp ⟨i, decode_encode i⟩

/-- R57: the matching words are the encodings. -/
theorem isSqdecd_iff_exists_encode (w : Word) : isSqdecd w = true ↔ ∃ i, encode i = w := by
  constructor
  · intro h
    obtain ⟨i, hi⟩ := (exists_decode_eq_instr_iff w).mpr h
    exact ⟨i, encode_of_decode hi⟩
  · rintro ⟨i, rfl⟩
    exact isSqdecd_encode i

/-- Settles O4: the bytes and the table bits are read through the word they make. -/
theorem encodedInstructionsDecode : Obligations.EncodedInstructionsDecode := by
  unfold Obligations.EncodedInstructionsDecode
  intro i
  have hbytes : ∀ rest, decodeBytes (bytesOfWord (encode i) ++ rest) = .ok (i, rest) := fun rest => by
    rw [decodeBytes_bytesOfWord, decode_encode]
  refine ⟨decode_encode i, hbytes, ?_⟩
  have hnil := hbytes []
  rw [List.append_nil] at hnil
  rw [decodeTableWord, tableWord_toNat, hnil]

/-! ### The set of the encodings (R57) -/

/-- Every instruction, once: 16 multipliers, 32 patterns, 32 registers. -/
def allInstrs : List Instr :=
  (List.finRange 16 ×ˢ List.finRange 32 ×ˢ List.finRange 32).map
    fun f => .sqdecdVector (.ofFin f.1) (.ofFin f.2.1) (.ofFin f.2.2)

theorem length_allInstrs : allInstrs.length = 2 ^ 14 := by
  simp only [allInstrs, List.length_map, List.length_product, List.length_finRange]
  rfl

theorem mem_allInstrs (i : Instr) : i ∈ allInstrs := by
  obtain ⟨⟨imm4⟩, ⟨pattern⟩, ⟨zdn⟩⟩ := i
  exact List.mem_map.mpr ⟨(imm4, pattern, zdn), by simp [List.mem_finRange], rfl⟩

theorem nodup_allInstrs : allInstrs.Nodup := by
  have hfields := (List.nodup_finRange 16).product ((List.nodup_finRange 32).product (List.nodup_finRange 32))
  refine hfields.map fun f g h => ?_
  simpa [Prod.ext_iff] using h

/-- Settles O2: the words of all instructions are the list. -/
theorem encodingsAreTheMatchingWords : Obligations.EncodingsAreTheMatchingWords := by
  unfold Obligations.EncodingsAreTheMatchingWords
  refine ⟨fun w => (exists_decode_eq_instr_iff w).trans (isSqdecd_iff w), sqdecdMask_getLsbD, by decide,
    allInstrs.map encode, nodup_allInstrs.map encode_injective, ?_, fun w => ?_⟩
  · rw [List.length_map, length_allInstrs]
  · rw [← isSqdecd_iff, isSqdecd_iff_exists_encode, List.mem_map]
    simp only [mem_allInstrs, true_and]

/-- Settles O3: each answer from the match, and the matching words by their fields. -/
theorem decoderHasTwoAnswers : Obligations.DecoderHasTwoAnswers := by
  unfold Obligations.DecoderHasTwoAnswers
  refine ⟨fun w h => decode_of_match ((isSqdecd_iff w).mpr h),
    fun w h => decode_of_not_match ((isSqdecd_eq_false_iff w).mpr h), fun s w hf h => ?_, fun v w _ hw h => ?_⟩
  · exact step_of_decode_notInSpec hf (decode_of_not_match ((isSqdecd_eq_false_iff w).mpr h))
  · obtain ⟨i, hi⟩ := (exists_decode_eq_instr_iff w).mpr ((isSqdecd_iff w).mpr hw)
    exact eq_of_decode_eq_instr (h.trans hi) hi

/-- Operands in their ranges are those of the instruction with these fields (R72). -/
theorem encodeOperands_eq_encode {dn imm : Nat} (pat : BitVec 5) (hdn : dn ≤ 31) (h1 : 1 ≤ imm) (h16 : imm ≤ 16) :
    encodeOperands dn pat imm = encode (.sqdecdVector (BitVec.ofNat 4 (imm - 1)) pat (BitVec.ofNat 5 dn)) := by
  have hz : (BitVec.ofNat 5 dn).toNat = dn := by rw [BitVec.toNat_ofNat]; omega
  have hi : (BitVec.ofNat 4 (imm - 1)).toNat + 1 = imm := by rw [BitVec.toNat_ofNat]; omega
  rw [encode, hz, hi]

/-- Settles O5: the formula is the definition, the two laws are those of `encode` and `decode`. -/
theorem assemblingFunctionInvertsDecoder : Obligations.AssemblingFunctionInvertsDecoder := by
  unfold Obligations.AssemblingFunctionInvertsDecoder
  refine ⟨fun dn pat imm hdn h1 h16 => ⟨rfl, ?_⟩, fun w imm4 pattern zdn h => (encode_of_decode h :), by decide,
    by decide, by decide, by decide⟩
  rw [encodeOperands_eq_encode pat hdn h1 h16, decode_encode]

/-- A matching word has the match value's bit at each fixed position. -/
theorem getLsbD_of_isSqdecd {w : Word} (h : isSqdecd w = true) {k : Nat} (hk : sqdecdMask.getLsbD k = true) :
    w.getLsbD k = sqdecdMatch.getLsbD k := by
  simpa [hk] using congrArg (fun x => x.getLsbD k) (beq_iff_eq.mp h)

/-- Settles O6: the word and the word with the bit inverted cannot both have the match value's bit there. -/
theorem invertedFixedBitIsRefused : Obligations.InvertedFixedBitIsRefused := by
  unfold Obligations.InvertedFixedBitIsRefused
  intro i k hk
  have hlt : k < 32 := by omega
  have hfixed : sqdecdMask.getLsbD k = true := (sqdecdMask_getLsbD k hlt).mpr (by omega)
  apply decode_of_not_match
  rw [Bool.eq_false_iff]
  intro hmatch
  have hboth : (encode i ^^^ (1#32 <<< k)).getLsbD k = (encode i).getLsbD k :=
    (getLsbD_of_isSqdecd hmatch hfixed).trans (getLsbD_of_isSqdecd (isSqdecd_encode i) hfixed).symm
  have hone : (1#32 <<< k).getLsbD k = true := by simp [hlt]
  rw [BitVec.getLsbD_xor, hone, Bool.xor_true] at hboth
  exact Bool.not_ne_self _ hboth

/-- Settles O7: the rule's masks and shifts are those of `elemSet`. -/
theorem fieldsAreIndependent : Obligations.FieldsAreIndependent := by
  unfold Obligations.FieldsAreIndependent
  intro w h
  have hd := decode_of_match h
  refine ⟨fun x => decode_set_imm4 hd x, fun x => decode_set_pattern hd x, fun x => ?_⟩
  have hset : elemSet w 0 5 x = (w &&& ~~~0x0000001F#32) ||| x.setWidth 32 := by
    rw [elemSet, Nat.zero_mul, BitVec.shiftLeft_zero, BitVec.shiftLeft_zero]
    rfl
  exact hset ▸ decode_set_zdn hd x

end Sys2Proof

namespace Sys2Proof

/-! ### The check of a written instruction, fault by fault (R73; the order of the faults is log 17) -/

theorem check_of_register {r : Nat} (s : Char) (p : Option PatSym) (m : Option Nat) (hr : 31 < r) :
    AsmLine.check ⟨r, s, p, m⟩ = some .register := if_pos hr

theorem check_of_suffix {r : Nat} {s : Char} (p : Option PatSym) (m : Option Nat) (hr : r ≤ 31) (hs : s ≠ 'D') :
    AsmLine.check ⟨r, s, p, m⟩ = some .suffix := by
  rw [AsmLine.check, if_neg (Nat.not_lt.mpr hr), if_pos hs]

theorem check_none_none {r : Nat} (hr : r ≤ 31) : AsmLine.check ⟨r, 'D', none, none⟩ = none := by
  simp [AsmLine.check, hr]

theorem check_none_some {r : Nat} (k : Nat) (hr : r ≤ 31) :
    AsmLine.check ⟨r, 'D', none, some k⟩ = some .multiplierWithoutPattern := by
  simp [AsmLine.check, hr]

theorem check_of_patternImmediate {r : Nat} {p : PatSym} (m : Option Nat) (hr : r ≤ 31) (hp : p.inRange = false) :
    AsmLine.check ⟨r, 'D', some p, m⟩ = some .patternImmediate := by
  simp [AsmLine.check, hr, hp]

theorem check_some_none {r : Nat} {p : PatSym} (hr : r ≤ 31) (hp : p.inRange = true) :
    AsmLine.check ⟨r, 'D', some p, none⟩ = none := by
  simp [AsmLine.check, hr, hp]

theorem check_some_some {r : Nat} {p : PatSym} (k : Nat) (hr : r ≤ 31) (hp : p.inRange = true) :
    AsmLine.check ⟨r, 'D', some p, some k⟩ = if 1 ≤ k ∧ k ≤ 16 then none else some .multiplier := by
  simp [AsmLine.check, hr, hp]

/-- A symbol fits its field unless it is an immediate above 31 (R73 c). -/
theorem inRange_iff (p : PatSym) : p.inRange = true ↔ ∀ n, p = .uimm5 n → n ≤ 31 := by
  cases p <;> simp [PatSym.inRange]

/-- The well-formed written instructions: none of the faults R73 (a) to (e). -/
theorem check_eq_none_iff (l : AsmLine) :
    l.check = none ↔
      l.reg ≤ 31 ∧ l.suffix = 'D' ∧ (∀ p, l.pattern = some p → p.inRange = true) ∧
      (l.pattern = none → l.mul = none) ∧ (∀ k, l.mul = some k → 1 ≤ k ∧ k ≤ 16) := by
  obtain ⟨r, s, p, m⟩ := l
  by_cases hr : r ≤ 31
  case neg => simp [check_of_register s p m (Nat.lt_of_not_le hr), hr]
  by_cases hs : s = 'D'
  case neg => simp [check_of_suffix p m hr hs, hs]
  subst hs
  match p, m with
  | none, none => simp [check_none_none hr, hr]
  | none, some k => simp [check_none_some k hr]
  | some p, m =>
    cases hp : p.inRange with
    | false => simp [check_of_patternImmediate m hr hp, hp]
    | true =>
      cases m with
      | none => simp [check_some_none hr hp, hr, hp]
      | some k => simp [check_some_some k hr hp, hr, hp]

/-- A length of `n` bits is accepted as itself where it is legal (R5, R73 f). -/
theorem ofBits_of_legal {n : Nat} (h : n % 128 = 0 ∧ 128 ≤ n ∧ n ≤ 2048) : ∃ v, VecLen.ofBits n = .ok v ∧ v.bits = n := by
  refine ⟨_, if_pos h, ?_⟩
  simp only [VecLen.bits, Fin.val_ofNat]
  omega

theorem ofBits_of_not_legal {n : Nat} (h : ¬(n % 128 = 0 ∧ 128 ≤ n ∧ n ≤ 2048)) :
    VecLen.ofBits n = .error .vectorLength := if_neg h

namespace Machine

/-! ### The assembling function (R68, R72, R73) -/

theorem assemble_of_check {l : AsmLine} {e : IllFormed} (h : l.check = some e) : assemble l = .error e := by
  simp only [assemble, h]

/-- A well-formed written instruction assembles to the word of its operands, with the defaults of R68. -/
theorem assemble_of_check_none {l : AsmLine} (h : l.check = none) :
    assemble l = .ok (encodeOperands l.reg (patternCode (l.pattern.getD .all)) (l.mul.getD 1)) := by
  simp only [assemble, h]

theorem exists_assemble_ok_iff (l : AsmLine) : (∃ w, assemble l = .ok w) ↔ l.check = none := by
  cases h : l.check with
  | none => simp [assemble_of_check_none h]
  | some e => simp [assemble_of_check h]

/-- What an assembled word decodes to: the operands written, with the defaults of R68. -/
theorem decode_of_assemble {l : AsmLine} {w : Word} (h : assemble l = .ok w) :
    decode w = .instr (.sqdecdVector (BitVec.ofNat 4 (l.mul.getD 1 - 1)) (patternCode (l.pattern.getD .all))
      (BitVec.ofNat 5 l.reg)) := by
  have hc := (exists_assemble_ok_iff l).mp ⟨w, h⟩
  obtain ⟨hr, -, -, -, hm⟩ := (check_eq_none_iff l).mp hc
  have hmul : 1 ≤ l.mul.getD 1 ∧ l.mul.getD 1 ≤ 16 := by
    cases hk : l.mul with
    | none => exact ⟨le_refl 1, by decide⟩
    | some k => exact hm k hk
  rw [assemble_of_check_none hc, encodeOperands_eq_encode _ hr hmul.1 hmul.2] at h
  cases h
  exact decode_encode _

/-- Settles O44: the three spellings have the same operands, and an accepted multiplier is 1 to 16. -/
theorem omittedOperandsHaveDefaults : Obligations.OmittedOperandsHaveDefaults := by
  unfold Obligations.OmittedOperandsHaveDefaults
  refine ⟨fun r hr => ?_, fun r p hr hp => ?_, by decide, fun r s p k w hk h => ?_⟩
  · have h := assemble_of_check_none (check_none_none hr)
    exact ⟨_, h, assemble_of_check_none (check_some_none hr rfl), assemble_of_check_none (check_some_some 1 hr rfl),
      decode_of_assemble h⟩
  · have h := assemble_of_check_none (check_some_none hr hp)
    exact ⟨_, h, decode_of_assemble h⟩
  · obtain ⟨-, -, -, -, hm⟩ := (check_eq_none_iff _).mp ((exists_assemble_ok_iff _).mp ⟨w, h⟩)
    have := hm k rfl
    omega

/-- Settles O45: acceptance is the check's, and each refusal is the fault the check names. -/
theorem illFormedInputIsRefusedByName : Obligations.IllFormedInputIsRefusedByName := by
  unfold Obligations.IllFormedInputIsRefusedByName
  refine ⟨fun l => ?_, fun r p k hr hp hk => ?_, fun r s p m hr => assemble_of_check (check_of_register s p m hr),
    fun r n m hr hn => ?_, fun r s p m hr hs => assemble_of_check (check_of_suffix p m hr hs),
    fun r k hr => assemble_of_check (check_none_some k hr), fun n => ⟨?_, ofBits_of_legal⟩, fun n => ofBits_of_not_legal⟩
  · rw [exists_assemble_ok_iff, check_eq_none_iff]
    simp only [inRange_iff]
    constructor
    · rintro ⟨hr, hs, hp, hrest⟩
      exact ⟨hr, hs, fun n hn => hp _ hn n rfl, hrest⟩
    · rintro ⟨hr, hs, hn, hrest⟩
      exact ⟨hr, hs, fun p hp n hpn => hn n (hpn ▸ hp), hrest⟩
  · exact assemble_of_check ((check_some_some k hr hp).trans (if_neg (by omega)))
  · exact assemble_of_check (check_of_patternImmediate m hr (decide_eq_false (Nat.not_le.mpr hn)))
  · rintro ⟨v, hv, -⟩
    by_contra h
    rw [ofBits_of_not_legal h] at hv
    cases hv

/-! ### The canonical text (R71) -/

/-- R71, first case: the multiplier is written, and so is the pattern. -/
theorem canonicalLine_of_imm4_ne {imm4 : BitVec 4} (pattern zdn : BitVec 5) (h : imm4 ≠ 0b0000#4) :
    canonicalLine (.sqdecdVector imm4 pattern zdn) =
      ⟨zdn.toNat, 'D', some (patternSymbol pattern), some (imm4.toNat + 1)⟩ := by
  simp only [canonicalLine, ne_eq, h, not_false_eq_true, true_or, if_true]

/-- R71, second case: the pattern alone is written. -/
theorem canonicalLine_of_pattern_ne {pattern : BitVec 5} (zdn : BitVec 5) (h : pattern ≠ 0b11111#5) :
    canonicalLine (.sqdecdVector 0b0000#4 pattern zdn) = ⟨zdn.toNat, 'D', some (patternSymbol pattern), none⟩ := by
  simp only [canonicalLine, ne_eq, h, not_true_eq_false, not_false_eq_true, or_true, if_true, if_false]

/-- R71, last case: neither is written. -/
theorem canonicalLine_of_defaults (zdn : BitVec 5) :
    canonicalLine (.sqdecdVector 0b0000#4 0b11111#5 zdn) = ⟨zdn.toNat, 'D', none, none⟩ := rfl

/-- The multiplier part of a written instruction (R67), empty where none is written. -/
def mulPart : Option Nat → List Char
  | some k => mulText ++ decimal k
  | none => []

theorem lineText_none (r : Nat) (s : Char) (m : Option Nat) :
    lineText ⟨r, s, none, m⟩ = mnemonicText ++ (decimal r ++ '.' :: s :: mulPart m) := by
  cases m <;> simp [lineText, mulPart]

theorem lineText_some (r : Nat) (s : Char) (p : PatSym) (m : Option Nat) :
    lineText ⟨r, s, some p, m⟩ =
      mnemonicText ++ (decimal r ++ '.' :: s :: (commaText ++ (patternText p ++ mulPart m))) := by
  cases m <;> simp [lineText, mulPart]

/-- The disassembling function on the word of an instruction. -/
theorem disassembleText_encode (i : Instr) : disassembleText (encode i) = some (lineText (canonicalLine i)) := by
  simp only [disassembleText, disassemble, decode_encode, Option.map_some]

/-- Settles O46: the three cases are those of the canonical line. -/
theorem canonicalSpelling : Obligations.CanonicalSpelling := by
  unfold Obligations.CanonicalSpelling
  intro imm4 pattern zdn
  have hdot : ".D, ".toList = '.' :: 'D' :: commaText := rfl
  rw [disassembleText_encode, hdot]
  refine ⟨fun hi => ?_, fun hi hp => ?_, fun hi hp => ?_⟩
  · rw [canonicalLine_of_imm4_ne pattern zdn hi, lineText_some]
    simp only [mulPart, List.append_assoc, List.cons_append]
    rfl
  · rw [hi, canonicalLine_of_pattern_ne zdn hp, lineText_some]
    simp only [mulPart, List.append_assoc, List.cons_append, List.append_nil]
    rfl
  · rw [hi, hp, canonicalLine_of_defaults, lineText_none]
    rfl

/-! ### Reading back a written text (R67) -/

/-- The text up to a comma is read off the front. -/
theorem spanToComma_append (p t : List Char) (hp : ',' ∉ p) (ht : ∀ c ∈ t.head?, c = ',') :
    spanToComma (p ++ t) = (p, t) := by
  induction p with
  | nil =>
    cases t with
    | nil => rfl
    | cons c t => simp [spanToComma, ht c rfl]
  | cons c p ih =>
    rw [List.mem_cons, not_or] at hp
    simp [spanToComma, Ne.symm hp.1, ih hp.2]

theorem head_mulPart (m : Option Nat) : ∀ c ∈ (mulPart m).head?, c = ',' := by
  cases m with
  | none => simp [mulPart]
  | some k =>
    rintro c ⟨⟩
    rfl

/-- A number alone reads back as it was written. -/
theorem takeNumber_decimal_nil {n : Nat} (hn : n ≤ 32) : takeNumber (decimal n) = some (n, []) := by
  have h := takeNumber_decimal n hn [] (by simp)
  rwa [List.append_nil] at h

theorem readMul_mulPart (m : Option Nat) (h : ∀ k, m = some k → k ≤ 32) : readMul (mulPart m) = .ok m := by
  cases m with
  | none => rfl
  | some k =>
    show readMul (mulText ++ decimal k) = _
    have hdrop := dropText_append mulText (decimal k)
    have hnum := takeNumber_decimal_nil (h k rfl)
    unfold readMul
    split
    · next heq => cases heq
    · simp only [hdrop, hnum]

/-- No name of a pattern is taken for an immediate (R59, R69). -/
theorem head_patternText_of_named : ∀ q ∈ namedPatterns, (patternText q).head? ≠ some '#' := by decide

/-- Every written pattern reads back. -/
theorem readPattern_patternText {p : PatSym} (h : p.inRange = true) : readPattern (patternText p) = .ok p := by
  cases p with
  | uimm5 n =>
    have hn : n ≤ 31 := (inRange_iff _).mp h n rfl
    have hname : namedPatterns.find? (fun q => patternText q == '#' :: decimal n) = none :=
      List.find?_eq_none.mpr fun q hq heq => head_patternText_of_named q hq (congrArg List.head? (beq_iff_eq.mp heq))
    show readPattern ('#' :: decimal n) = _
    simp only [readPattern, hname, takeNumber_decimal_nil (Nat.le_succ_of_le hn)]
  | _ => decide

/-- No written pattern has a comma in it. -/
theorem comma_notMem_patternText {p : PatSym} (h : p.inRange = true) : ',' ∉ patternText p := by
  cases p with
  | uimm5 n =>
    have hd : ∀ n, n ≤ 31 → ',' ∉ '#' :: decimal n := by decide
    exact hd n ((inRange_iff _).mp h n rfl)
  | _ => decide

/-- The text of a pattern is not taken for that of a multiplier, not even `MUL4` and `MUL3`. -/
theorem dropText_mulText_patternText (p : PatSym) (t : List Char) :
    dropText mulText (commaText ++ (patternText p ++ t)) = none := by
  cases p <;> rfl

theorem readTail_pattern {p : PatSym} {m : Option Nat} (hp : p.inRange = true) (hm : ∀ k, m = some k → k ≤ 32) :
    readTail (commaText ++ (patternText p ++ mulPart m)) = .ok (some p, m) := by
  have hmul := dropText_mulText_patternText p (mulPart m)
  have hcomma := dropText_append commaText (patternText p ++ mulPart m)
  have hspan := spanToComma_append _ _ (comma_notMem_patternText hp) (head_mulPart m)
  unfold readTail
  split
  · next heq => cases heq
  · simp only [hmul, hcomma, hspan, readPattern_patternText hp, readMul_mulPart m hm]
    rfl

/-- The register and the suffix read back, and what stands after them is read as the tail. -/
theorem readLine_of_readTail {r : Nat} (s : Char) {t : List Char} {p : Option PatSym} {m : Option Nat} (hr : r ≤ 31)
    (h : readTail t = .ok (p, m)) : readLine (mnemonicText ++ (decimal r ++ '.' :: s :: t)) = .ok ⟨r, s, p, m⟩ := by
  have hnum := takeNumber_decimal r (Nat.le_succ_of_le hr) ('.' :: s :: t) (by simp)
  simp only [readLine, dropText_append, hnum, h]
  rfl

/-- Every well-formed written instruction reads back from its text. -/
theorem readLine_lineText {l : AsmLine} (h : l.check = none) : readLine (lineText l) = .ok l := by
  obtain ⟨hr, -, hp, hnone, hm⟩ := (check_eq_none_iff l).mp h
  obtain ⟨r, s, p, m⟩ := l
  cases p with
  | none =>
    cases hnone rfl
    rw [lineText_none]
    exact readLine_of_readTail s hr rfl
  | some p =>
    rw [lineText_some]
    exact readLine_of_readTail s hr (readTail_pattern (hp p rfl) fun k hk => (hm k hk).2.trans (by decide))

/-- Assembling the text of a well-formed written instruction is assembling the instruction. -/
theorem assembleText_lineText {l : AsmLine} (h : l.check = none) : assembleText (lineText l) = assemble l := by
  simp only [assembleText, readLine_lineText h]

/-- The canonical spelling of every instruction is well-formed. -/
theorem check_canonicalLine (i : Instr) : (canonicalLine i).check = none := by
  obtain ⟨imm4, pattern, zdn⟩ := i
  have hr : zdn.toNat ≤ 31 := Nat.le_of_lt_succ zdn.isLt
  have hp := (patternCode_patternSymbol pattern).2
  by_cases hi : imm4 = 0b0000#4
  · subst hi
    by_cases hall : pattern = 0b11111#5
    · rw [hall, canonicalLine_of_defaults, check_none_none hr]
    · rw [canonicalLine_of_pattern_ne zdn hall, check_some_none hr hp]
  · rw [canonicalLine_of_imm4_ne pattern zdn hi, check_some_some _ hr hp, if_pos ⟨Nat.le_add_left 1 _, imm4.isLt⟩]

/-- The canonical spelling omits only what R68 puts back. -/
theorem assemble_canonicalLine (i : Instr) : assemble (canonicalLine i) = .ok (encode i) := by
  rw [assemble_of_check_none (check_canonicalLine i)]
  obtain ⟨imm4, pattern, zdn⟩ := i
  have hp := (patternCode_patternSymbol pattern).1
  by_cases hi : imm4 = 0b0000#4
  · subst hi
    by_cases hall : pattern = 0b11111#5
    · subst hall
      rfl
    · rw [canonicalLine_of_pattern_ne zdn hall, Option.getD_some, hp]
      rfl
  · rw [canonicalLine_of_imm4_ne pattern zdn hi, Option.getD_some, Option.getD_some, hp]
    rfl

/-- Settles O47: the canonical text reads back as the canonical spelling, which assembles to the word. -/
theorem disassembledTextAssembles : Obligations.DisassembledTextAssembles := by
  unfold Obligations.DisassembledTextAssembles
  intro w h
  obtain ⟨i, rfl⟩ := (isSqdecd_iff_exists_encode w).mp h
  refine ⟨_, disassembleText_encode i, ?_⟩
  rw [assembleText_lineText (check_canonicalLine i), assemble_canonicalLine]

/-! ### Samples and tables -/

/-- Settles O1: the words of the table, by evaluation of the decoder. -/
theorem sampleWordsDecode : Obligations.SampleWordsDecode := by
  unfold Obligations.SampleWordsDecode
  decide

/-- An unnamed value prints as an immediate of itself (R69). -/
theorem patternSymbol_of_unnamed : ∀ p : BitVec 5, 14 ≤ p.toNat → p.toNat ≤ 28 → patternSymbol p = .uimm5 p.toNat := by
  decide

/-- Settles O43: the seventeen names and the unnamed values by evaluation; each symbol encodes its value. -/
theorem patternTable : Obligations.PatternTable := by
  unfold Obligations.PatternTable
  exact ⟨by decide, patternSymbol_of_unnamed, fun p => (patternCode_patternSymbol p).1, fun _ _ => rfl⟩

end Machine

end Sys2Proof

/-! Proofs of the family `40_sqdecd_vector.md`: the count, one element, one instruction, and a sequence of instructions. -/

namespace Sys2Proof.Machine

/-! ### The instruction where SVE is implemented and enabled (R83, R110) -/

theorem exec_of_sveReady {s : State} (h : s.sveReady) (imm4 : BitVec 4) (pattern zdn : BitVec 5) :
    exec (.sqdecdVector imm4 pattern zdn) s = .next (s.decremented imm4 pattern zdn) := by
  obtain ⟨hsve, haccess⟩ := h
  simp only [exec_sqdecd_cases, hsve, haccess, if_true]

/-- Where SVE is not implemented or not enabled, every instruction raises the same exception, which the two parameters alone decide (R111, R112). -/
theorem exec_of_not_sveReady {s : State} (h : ¬ s.sveReady) : ∃ r, ∀ i, exec i s = .fault r := by
  cases hsve : s.par.haveSve with
  | false =>
    exact ⟨.exception .undefinedInstruction, fun ⟨imm4, pattern, zdn⟩ => by simp [exec_sqdecd_cases, hsve]⟩
  | true =>
    cases haccess : s.par.sveAccess with
    | enabled => exact absurd ⟨hsve, haccess⟩ h
    | trapped =>
      exact ⟨.exception .sveAccessTrap, fun ⟨imm4, pattern, zdn⟩ => by simp [exec_sqdecd_cases, hsve, haccess]⟩

/-! ### States by their elements (R20, R22) -/

/-- Two registers of one length with the same elements hold the same bits, in whatever states they stand. -/
theorem readZ_toNat_eq_of_lane_eq {s t : State} {n : Fin 32} (hpar : t.par = s.par)
    (h : ∀ e, e < s.par.vl.elements → t.lane n e = s.lane n e) : (t.readZ n).toNat = (s.readZ n).toNat := by
  obtain ⟨par, z, pc⟩ := s
  obtain ⟨par', z', pc'⟩ := t
  cases hpar
  exact congrArg BitVec.toNat (eq_of_elemGet_eq (by decide) _ (elements_tile par.vl) h)

/-- A state is its parameters, its `pc` and the elements of its registers. -/
theorem state_eq_of_lane_eq {s t : State} (hpar : t.par = s.par) (hpc : t.pc = s.pc)
    (h : ∀ n e, e < s.par.vl.elements → t.lane n e = s.lane n e) : t = s := by
  have hz := fun n => readZ_toNat_eq_of_lane_eq hpar (h n)
  obtain ⟨par, z, pc⟩ := s
  obtain ⟨par', z', pc'⟩ := t
  cases hpar
  cases hpc
  congr 1
  ext i hi : 1
  exact BitVec.eq_of_toNat_eq (hz ⟨i, hi⟩)

/-! ### One decrement, and a sequence of decrements (R94, R95) -/

/-- The state after a decrement of the register `d.1` by `d.2`: what `decrementOf` keeps of an instruction. -/
def State.decrementBy (s : State) (d : Fin 32 × Nat) : State :=
  (s.writeZ d.1 (decrementLanes (s.readZ d.1) d.2)).advancePc

/-- An instruction that completes is the decrement that R95 takes from it. -/
theorem decremented_eq_decrementBy (s : State) (imm4 : BitVec 4) (pattern zdn : BitVec 5) :
    s.decremented imm4 pattern zdn = s.decrementBy (decrementOf s.par.vl (.sqdecdVector imm4 pattern zdn)) := rfl

@[simp] theorem decrementBy_par (s : State) (d : Fin 32 × Nat) : (s.decrementBy d).par = s.par := rfl

@[simp] theorem decrementBy_pc (s : State) (d : Fin 32 × Nat) : (s.decrementBy d).pc = s.pc + 4 := rfl

/-- Every element of every register is decremented, those of the other registers by nothing (R31, R83, R87). -/
theorem lane_decrementBy (s : State) (d : Fin 32 × Nat) (n : Fin 32) {e : Nat} (he : e < s.par.vl.elements) :
    (s.decrementBy d).lane n e = decrementLane (s.lane n e) (if d.1 = n then d.2 else 0) := by
  unfold State.decrementBy
  rw [advancePc_lane]
  split
  · next h =>
    subst h
    rw [lane_writeZ_same]
    exact elemGet_decrementLanes _ _ _ he
  · next h => rw [lane_writeZ_other s _ e (Ne.symm h), decrementLane_zero]

/-- R95: two decrements commute, because on every element they are one decrement by their sum. -/
theorem decrementBy_right_comm (s : State) (c d : Fin 32 × Nat) :
    (s.decrementBy c).decrementBy d = (s.decrementBy d).decrementBy c := by
  refine state_eq_of_lane_eq rfl rfl fun n e he => ?_
  rw [lane_decrementBy (s.decrementBy c) d n he, lane_decrementBy s c n he,
    lane_decrementBy (s.decrementBy d) c n he, lane_decrementBy s d n he,
    decrementLane_add, decrementLane_add, Nat.add_comm]

theorem foldl_decrementBy_par (ds : List (Fin 32 × Nat)) (s : State) : (ds.foldl State.decrementBy s).par = s.par := by
  induction ds generalizing s with
  | nil => rfl
  | cons d ds ih => rw [List.foldl_cons, ih, decrementBy_par]

theorem foldl_decrementBy_pc (ds : List (Fin 32 × Nat)) (s : State) :
    (ds.foldl State.decrementBy s).pc = s.pc + BitVec.ofNat 64 (4 * ds.length) := by
  induction ds generalizing s with
  | nil => simp
  | cons d ds ih =>
    rw [List.foldl_cons, ih, decrementBy_pc, List.length_cons]
    bv_omega

/-- What a sequence of decrements takes from the register `n` in all. -/
def totalDecrement (n : Fin 32) (ds : List (Fin 32 × Nat)) : Nat := (ds.map fun d => if d.1 = n then d.2 else 0).sum

/-- R94: on every element a sequence of decrements is one decrement by the sum of those of its register. -/
theorem lane_foldl_decrementBy (ds : List (Fin 32 × Nat)) (s : State) (n : Fin 32) {e : Nat}
    (he : e < s.par.vl.elements) :
    (ds.foldl State.decrementBy s).lane n e = decrementLane (s.lane n e) (totalDecrement n ds) := by
  induction ds generalizing s with
  | nil => exact (decrementLane_zero _).symm
  | cons d ds ih =>
    rw [List.foldl_cons, ih (s.decrementBy d) he, lane_decrementBy s d n he, decrementLane_add]
    rfl

/-- Where SVE is implemented and enabled, a sequence of instructions completes as the sequence of its decrements. -/
theorem execAll_of_sveReady (l : List Instr) {s : State} (h : s.sveReady) :
    execAll l s = .next ((l.map (decrementOf s.par.vl)).foldl State.decrementBy s) := by
  induction l generalizing s with
  | nil => rfl
  | cons i l ih =>
    obtain ⟨imm4, pattern, zdn⟩ := i
    simp only [execAll, exec_of_sveReady h, decremented_eq_decrementBy]
    exact ih h

/-- Where SVE is not implemented or not enabled, a sequence stops at its first instruction, whichever that is. -/
theorem execAll_of_not_sveReady {s : State} (h : ¬ s.sveReady) : ∃ r, ∀ l, l ≠ [] → execAll l s = .fault r := by
  obtain ⟨r, hr⟩ := exec_of_not_sveReady h
  refine ⟨r, fun l hl => ?_⟩
  cases l with
  | nil => exact absurd rfl hl
  | cons i l => simp only [execAll, hr]

/-- The decrements of a sequence of instructions on the register `Z[dn]`. -/
theorem map_decrementOf_sameRegister (v : VecLen) (zdn : BitVec 5) (l : List (BitVec 4 × BitVec 5)) :
    (l.map fun p => Instr.sqdecdVector p.1 p.2 zdn).map (decrementOf v) =
      l.map fun p => (regNumber zdn, decrement v p.2 p.1) := by
  rw [List.map_map]
  rfl

/-- A sequence on one register takes from that register the sum of its decrements. -/
theorem totalDecrement_same (n : Fin 32) {α : Type} (f : α → Nat) (l : List α) :
    totalDecrement n (l.map fun a => (n, f a)) = (l.map f).sum := by
  simp [totalDecrement, Function.comp_def]

/-- A sequence on one register takes nothing from another. -/
theorem totalDecrement_other {m n : Fin 32} (h : m ≠ n) {α : Type} (f : α → Nat) (l : List α) :
    totalDecrement m (l.map fun a => (n, f a)) = 0 := by
  simp [totalDecrement, Function.comp_def, Ne.symm h]

/-- Settles O22: the sequence completes as its decrements, which are one decrement by their sum on the elements of `Z[dn]`, and
by nothing on those of every other register. -/
theorem sequenceIsOneDecrement : Obligations.SequenceIsOneDecrement := by
  unfold Obligations.SequenceIsOneDecrement
  intro zdn l s h
  refine ⟨_, execAll_of_sveReady _ h, ?_⟩
  rw [map_decrementOf_sameRegister]
  have hpar := foldl_decrementBy_par (l.map fun p => (regNumber zdn, decrement s.par.vl p.2 p.1)) s
  refine ⟨fun e he => ?_, fun m hm => readZ_toNat_eq_of_lane_eq hpar fun e he => ?_, ?_, hpar⟩
  · rw [lane_foldl_decrementBy _ s _ he, totalDecrement_same, toInt_decrementLane]
  · rw [lane_foldl_decrementBy _ s _ he, totalDecrement_other hm, decrementLane_zero]
  · rw [foldl_decrementBy_pc, List.length_map]

/-- R95: what a sequence does depends only on the multiset of its decrements. -/
theorem execAll_eq_of_perm {l1 l2 : List Instr} {s : State}
    (h : (l1.map (decrementOf s.par.vl)).Perm (l2.map (decrementOf s.par.vl))) : execAll l1 s = execAll l2 s := by
  by_cases hs : s.sveReady
  · rw [execAll_of_sveReady l1 hs, execAll_of_sveReady l2 hs, h.foldl_eq (rcomm := ⟨decrementBy_right_comm⟩)]
  · obtain ⟨r, hr⟩ := execAll_of_not_sveReady hs
    cases l1 with
    | nil =>
      rw [List.map_nil, List.nil_perm, List.map_eq_nil_iff] at h
      rw [h]
    | cons i l1 =>
      have h2 : l2 ≠ [] := by
        rintro rfl
        simp at h
      rw [hr _ (List.cons_ne_nil i l1), hr l2 h2]

/-- Settles O23: two instructions in either order are permutations of one list. -/
theorem orderOfDecrementsDoesNotMatter : Obligations.OrderOfDecrementsDoesNotMatter := by
  unfold Obligations.OrderOfDecrementsDoesNotMatter
  exact ⟨fun i j s => execAll_eq_of_perm ((List.Perm.swap j i []).map _), fun l1 l2 s h => execAll_eq_of_perm h⟩


/-! ### FloorPow2 and the predicate-constraint count (R80, R81, R82) -/

/-- `FloorPow2(x)` is the power of two with the binary logarithm of `x` as its exponent. -/
theorem floorPow2_eq_two_pow_iff {x : Nat} (hx : 1 ≤ x) (k : Nat) :
    floorPow2 x = 2 ^ k ↔ 2 ^ k ≤ x ∧ x < 2 ^ (k + 1) := by
  rw [floorPow2, Nat.pow_right_inj (by decide), Nat.log2_eq_iff (by omega)]

theorem exists_floorPow2_eq_two_pow {x : Nat} (hx : 1 ≤ x) :
    ∃ k, floorPow2 x = 2 ^ k ∧ 2 ^ k ≤ x ∧ x < 2 ^ (k + 1) :=
  ⟨x.log2, rfl, (floorPow2_eq_two_pow_iff hx _).mp rfl⟩

/-- Settles O10: existence and uniqueness of the exponent, and the sixteen values by evaluation. -/
theorem floorPow2IsTheLargestPower : Obligations.FloorPow2IsTheLargestPower := by
  unfold Obligations.FloorPow2IsTheLargestPower
  refine ⟨fun x hx => ?_, by decide⟩
  obtain ⟨k, hk, hlo, hhi⟩ := exists_floorPow2_eq_two_pow hx
  exact ⟨k, hk, hlo, hhi, fun j h1 h2 => ((floorPow2_eq_two_pow_iff hx j).mpr ⟨h1, h2⟩).symm⟩

/-- The patterns `VLn` with their `n` (R59, R80). -/
def fixedConstraints : List (BitVec 5 × Nat) :=
  [(0b00001#5, 1), (0b00010#5, 2), (0b00011#5, 3), (0b00100#5, 4), (0b00101#5, 5), (0b00110#5, 6), (0b00111#5, 7),
    (0b01000#5, 8), (0b01001#5, 16), (0b01010#5, 32), (0b01011#5, 64), (0b01100#5, 128), (0b01101#5, 256)]

theorem decodePredCount_pow2 (vl esz : Nat) : decodePredCount vl 0b00000#5 esz = floorPow2 (vl / esz) := rfl

theorem decodePredCount_mul4 (vl esz : Nat) : decodePredCount vl 0b11101#5 esz = vl / esz - vl / esz % 4 := rfl

theorem decodePredCount_mul3 (vl esz : Nat) : decodePredCount vl 0b11110#5 esz = vl / esz - vl / esz % 3 := rfl

theorem decodePredCount_all (vl esz : Nat) : decodePredCount vl 0b11111#5 esz = vl / esz := rfl

theorem decodePredCount_fixed (vl esz : Nat) :
    ∀ pn ∈ fixedConstraints, decodePredCount vl pn.1 esz = fixedCount (vl / esz) pn.2 := by
  simp only [fixedConstraints, List.forall_mem_cons]
  exact ⟨rfl, rfl, rfl, rfl, rfl, rfl, rfl, rfl, rfl, rfl, rfl, rfl, rfl, nofun⟩

/-- A pattern without a name counts nothing (R80): each named one is outside 14 to 28. -/
theorem decodePredCount_unnamed (vl esz : Nat) {p : BitVec 5} (h : 14 ≤ p.toNat ∧ p.toNat ≤ 28) :
    decodePredCount vl p esz = 0 := by
  unfold decodePredCount
  split
  case h_18 => rfl
  all_goals exact absurd h (by decide)

/-- Every pattern is one of R80's arms. -/
theorem pattern_cases : ∀ p : BitVec 5, p = 0b00000#5 ∨ (∃ pn ∈ fixedConstraints, pn.1 = p) ∨
    (14 ≤ p.toNat ∧ p.toNat ≤ 28) ∨ p = 0b11101#5 ∨ p = 0b11110#5 ∨ p = 0b11111#5 := by
  decide

/-- Settles O11: each arm is its own equation; that a multiple fits is arithmetic on the remainder. -/
theorem predicateCountArms : Obligations.PredicateCountArms := by
  unfold Obligations.PredicateCountArms
  intro vl esz hvl hesz hdvd
  have helems : 1 ≤ vl / esz := Nat.div_pos (Nat.le_of_dvd hvl (Nat.dvd_of_mod_eq_zero hdvd)) hesz
  rw [decodePredCount_pow2, decodePredCount_mul4, decodePredCount_mul3]
  refine ⟨?_, decodePredCount_fixed vl esz, ⟨rfl, by omega, fun m hm hle => by omega⟩,
    ⟨rfl, by omega, fun m hm hle => by omega⟩, decodePredCount_all vl esz,
    fun p h1 h2 => decodePredCount_unnamed vl esz ⟨h1, h2⟩, fun p => decodePredCount_le vl p esz helems⟩
  obtain ⟨k, hk, hlo, hhi⟩ := exists_floorPow2_eq_two_pow helems
  exact ⟨k, hk, hlo, hhi⟩

/-- Settles O12: the table by evaluation at the sixteen lengths; an unnamed pattern by its arm. -/
theorem countTableOfLegalLengths : Obligations.CountTableOfLegalLengths := by
  unfold Obligations.CountTableOfLegalLengths
  refine fun v => ⟨?_, fun p h1 h2 => decodePredCount_unnamed v.bits 64 ⟨h1, h2⟩⟩
  obtain ⟨q⟩ := v
  revert q
  decide

/-! ### When the count is zero, and when the decrement is greatest (R87, R88) -/

theorem fixedCount_eq_zero_iff {elements n : Nat} (hn : 1 ≤ n) : fixedCount elements n = 0 ↔ elements < n := by
  unfold fixedCount
  split <;> omega

/-- The number of a pattern `VLn` by its encoding: up to 8 the encoding itself, from 9 on a power of two (R59). -/
theorem fixedConstraints_number : ∀ pn ∈ fixedConstraints, 1 ≤ pn.2 ∧
    (1 ≤ pn.1.toNat ∧ pn.1.toNat ≤ 8 ∧ pn.2 = pn.1.toNat ∨
      9 ≤ pn.1.toNat ∧ pn.1.toNat ≤ 13 ∧ pn.2 = 2 ^ (pn.1.toNat - 5)) := by
  decide

/-- 128 bits are two elements, and every other legal length has at least four (R22). -/
theorem bits_eq_128_iff (v : VecLen) : v.bits = 128 ↔ v.elements < 3 := by
  have := elements_tile v
  have := elements_eq v
  omega

/-- Settles O19: arm by arm; two elements are the fewest a register can have. -/
theorem whenTheCountIsZero : Obligations.WhenTheCountIsZero := by
  unfold Obligations.WhenTheCountIsZero
  intro v p
  have hlen := elements_eq v
  have helems : v.bits / 64 = v.elements := rfl
  rw [bits_eq_128_iff]
  rcases pattern_cases p with rfl | ⟨pn, hpn, rfl⟩ | h | rfl | rfl | rfl
  · have hpos := floorPow2_bounds (x := v.elements) (by omega)
    rw [decodePredCount_pow2, helems]
    bv_omega
  · obtain ⟨hpos, hnumber⟩ := fixedConstraints_number pn hpn
    rw [decodePredCount_fixed _ _ pn hpn, fixedCount_eq_zero_iff hpos, helems]
    bv_omega
  · exact iff_of_true (decodePredCount_unnamed _ _ h) (.inl h)
  · rw [decodePredCount_mul4, helems]
    simp only [true_or, true_and]
    bv_omega
  · rw [decodePredCount_mul3, helems]
    simp only [or_true, true_and]
    bv_omega
  · rw [decodePredCount_all, helems]
    bv_omega

/-- The count is at most the number of elements (R80). -/
theorem decodePredCount_le_elements (v : VecLen) (p : BitVec 5) : decodePredCount v.bits p 64 ≤ v.elements :=
  decodePredCount_le v.bits p 64 (Nat.le_of_succ_le (elements_bounds v).1)

theorem multiplier_eq_16_iff : ∀ imm4 : BitVec 4, multiplier imm4 = 16 ↔ imm4 = 0b1111#4 := by decide

/-- The patterns whose count is the 32 elements of the greatest length (R82, last row). -/
theorem decodePredCount_2048_eq_32_iff : ∀ p : BitVec 5, decodePredCount 2048 p 64 = 32 ↔
    p = 0b00000#5 ∨ p = 0b01010#5 ∨ p = 0b11101#5 ∨ p = 0b11111#5 := by
  decide

/-- A count of 32 needs the 32 elements of the greatest length. -/
theorem decodePredCount_eq_32_iff (v : VecLen) (p : BitVec 5) : decodePredCount v.bits p 64 = 32 ↔
    v.bits = 2048 ∧ (p = 0b00000#5 ∨ p = 0b01010#5 ∨ p = 0b11101#5 ∨ p = 0b11111#5) := by
  rw [← decodePredCount_2048_eq_32_iff]
  have hcount := decodePredCount_le_elements v p
  have htile := elements_tile v
  have hmax := (elements_bounds v).2
  constructor
  · intro h
    have hbits : v.bits = 2048 := by omega
    exact ⟨hbits, hbits ▸ h⟩
  · rintro ⟨hbits, h⟩
    rwa [hbits]

/-- A product of a factor up to 32 and one up to 16 is 512 only at both bounds. -/
theorem mul_eq_512_iff {count imm : Nat} (hcount : count ≤ 32) (himm : imm ≤ 16) :
    count * imm = 512 ↔ count = 32 ∧ imm = 16 := by
  constructor
  · intro h
    have h1 : ¬ count ≤ 31 := fun hlt => by have := Nat.mul_le_mul hlt himm; omega
    have h2 : ¬ imm ≤ 15 := fun hlt => by have := Nat.mul_le_mul hcount hlt; omega
    omega
  · rintro ⟨rfl, rfl⟩
    rfl

/-- Settles O20: both factors of the decrement are bounded, and it is 512 exactly where both are at their bounds. -/
theorem decrementIsAtMost512 : Obligations.DecrementIsAtMost512 := by
  unfold Obligations.DecrementIsAtMost512
  intro v p imm4
  have hdec : decrement v p imm4 = decodePredCount v.bits p 64 * multiplier imm4 := rfl
  have hcount := decodePredCount_le_elements v p
  have himm := (multiplier_bounds imm4).2
  have hmax := (elements_bounds v).2
  refine ⟨Nat.mul_le_mul hcount himm, by omega, ?_⟩
  rw [hdec, mul_eq_512_iff (hcount.trans hmax) himm, decodePredCount_eq_32_iff, multiplier_eq_16_iff]
  tauto

/-! ### One element (R83 to R87) -/

/-- Above the clamp the new element is the wrapping difference (R84). -/
theorem decrementLane_of_ge {x : Lane} {dec : Nat} (h : -(2 ^ 63) ≤ x.toInt - (dec : Int)) :
    decrementLane x dec = x - BitVec.ofNat 64 dec := by
  have hx : x.toInt < 2 ^ 63 := BitVec.toInt_lt
  have hsat : satQ (x.toInt - dec) 64 false = (BitVec.ofInt 64 (x.toInt - dec), false) :=
    satQ_of_mem_range (unsigned := false) h (show x.toInt - (dec : Int) ≤ 2 ^ 63 - 1 by omega)
  calc decrementLane x dec = (satQ (x.toInt - dec) 64 false).1 := rfl
    _ = BitVec.ofInt 64 (x.toInt - dec) := by rw [hsat]
    _ = x - BitVec.ofNat 64 dec := by
      rw [sub_eq_add_neg, BitVec.ofInt_add, BitVec.ofInt_neg, BitVec.ofInt_toInt, BitVec.ofInt_natCast,
        ← sub_eq_add_neg]

/-- The new element is the least value exactly where the difference is not above it (R84). -/
theorem decrementLane_eq_min_iff (x : Lane) (dec : Nat) :
    decrementLane x dec = 0x8000000000000000#64 ↔ x.toInt - (dec : Int) ≤ -(2 ^ 63) := by
  have hmin : (0x8000000000000000#64).toInt = -(2 ^ 63) := by decide
  rw [← BitVec.toInt_inj, toInt_decrementLane, hmin]
  omega

/-- No element ever grows (R86). -/
theorem toInt_decrementLane_le (x : Lane) (dec : Nat) : (decrementLane x dec).toInt ≤ x.toInt := by
  have hx : -(2 ^ 63) ≤ x.toInt := BitVec.le_toInt x
  rw [toInt_decrementLane]
  omega

/-- The least value is a fixed point (R86). -/
theorem decrementLane_min (dec : Nat) : decrementLane 0x8000000000000000#64 dec = 0x8000000000000000#64 := by
  have hmin : (0x8000000000000000#64).toInt = -(2 ^ 63) := by decide
  rw [decrementLane_eq_min_iff, hmin]
  omega

/-- The greatest value comes only from itself, undecremented (R85). -/
theorem decrementLane_eq_max_iff (x : Lane) (dec : Nat) :
    decrementLane x dec = 0x7FFFFFFFFFFFFFFF#64 ↔ x = 0x7FFFFFFFFFFFFFFF#64 ∧ dec = 0 := by
  have hmax : (0x7FFFFFFFFFFFFFFF#64).toInt = 2 ^ 63 - 1 := by decide
  have hx : x.toInt < 2 ^ 63 := BitVec.toInt_lt
  rw [← BitVec.toInt_inj, ← BitVec.toInt_inj, toInt_decrementLane, hmax]
  omega

/-! ### One instruction (R83 to R87, R93) -/

/-- Settles O13: the instruction completes with its destination decremented, and `decrementLane` is `SatQ` of the difference. -/
theorem sqdecdCompletesWithDecrementedElements : Obligations.SqdecdCompletesWithDecrementedElements := by
  unfold Obligations.SqdecdCompletesWithDecrementedElements
  intro s imm4 pattern zdn h
  exact ⟨_, exec_of_sveReady h imm4 pattern zdn, fun e he => lane_decremented_same s imm4 pattern zdn e he,
    decremented_pc .., fun m hm => congrArg BitVec.toNat (readZ_decremented_other s imm4 pattern zdn hm),
    decremented_par .., fun a => by rw [decremented_memory]⟩

/-- Settles O15: the closed form of one element and its two cases. -/
theorem closedFormOfOneElement : Obligations.ClosedFormOfOneElement := by
  unfold Obligations.ClosedFormOfOneElement
  intro s imm4 pattern zdn h
  refine ⟨_, exec_of_sveReady h imm4 pattern zdn, fun e he => ?_⟩
  rw [lane_decremented_same s imm4 pattern zdn e he]
  exact ⟨toInt_decrementLane _ _, decrementLane_of_ge,
    fun hlt => (decrementLane_eq_min_iff _ _).mpr hlt.le, sub_lt_iff_lt_add⟩

/-- Settles O16: the old element is at most `2^63 - 1` and the decrement is not negative. -/
theorem saturationIsOneSided : Obligations.SaturationIsOneSided := by
  unfold Obligations.SaturationIsOneSided
  intro s imm4 pattern zdn h
  refine ⟨_, exec_of_sveReady h imm4 pattern zdn, fun e he => ?_⟩
  rw [lane_decremented_same s imm4 pattern zdn e he]
  have hx : (s.lane (regNumber zdn) e).toInt < 2 ^ 63 := BitVec.toInt_lt
  exact ⟨by omega, decrementLane_eq_max_iff _ _⟩

/-- Settles O17: both facts hold of every decremented element. -/
theorem leastElementIsFixedAndDecrementIsMonotone : Obligations.LeastElementIsFixedAndDecrementIsMonotone := by
  unfold Obligations.LeastElementIsFixedAndDecrementIsMonotone
  intro s imm4 pattern zdn h
  refine ⟨_, exec_of_sveReady h imm4 pattern zdn, fun e he => ?_⟩
  rw [lane_decremented_same s imm4 pattern zdn e he]
  exact ⟨fun hmin => by rw [hmin, decrementLane_min], toInt_decrementLane_le _ _⟩

/-- A decrement by nothing only advances `pc` (R87): every element of the register is written with its old value. -/
theorem decrementBy_zero (s : State) (n : Fin 32) : s.decrementBy (n, 0) = s.advancePc := by
  refine state_eq_of_lane_eq rfl rfl fun m e he => ?_
  rw [lane_decrementBy s _ m he, ite_self, decrementLane_zero, advancePc_lane]

/-- Settles O18: with a zero count the decrement is zero. -/
theorem zeroCountKeepsTheRegister : Obligations.ZeroCountKeepsTheRegister := by
  unfold Obligations.ZeroCountKeepsTheRegister
  intro s imm4 pattern zdn h hcount
  have hdec : decrement s.par.vl pattern imm4 = 0 := by
    rw [decrement, esize, hcount, Nat.zero_mul]
  rw [exec_of_sveReady h, decremented_eq_decrementBy, decrementOf, hdec, decrementBy_zero]

/-- Settles O21: each new element is the same function of the old element and the decrement, which is that of the length, the
pattern and the multiplier. -/
theorem elementsAreIndependent : Obligations.ElementsAreIndependent := by
  unfold Obligations.ElementsAreIndependent
  intro s1 s2 t1 t2 imm4 pattern z1 z2 e1 e2 hvl he1 he2 hold h1 h2
  obtain ⟨_, _, _, hi1, -, -, rfl⟩ := exec_next h1
  obtain ⟨_, _, _, hi2, -, -, rfl⟩ := exec_next h2
  cases hi1
  cases hi2
  rw [lane_decremented_same s1 imm4 pattern z1 e1 he1, lane_decremented_same s2 imm4 pattern z2 e2 he2, hold, hvl]

end Sys2Proof.Machine

/-! Proofs of the family `60_exceptions.md`: the two exceptions and the one refusal, where each is raised. -/

namespace Sys2Proof.Machine

/-! ### The two exceptions of an instruction (R110 to R114) -/

/-- The first check alone decides on `UndefinedInstruction`, whatever the instruction (R111). -/
theorem exec_eq_undefinedInstruction_iff (i : Instr) (s : State) :
    exec i s = .fault (.exception .undefinedInstruction) ↔ s.par.haveSve = false := by
  cases i with
  | sqdecdVector imm4 pattern zdn =>
    rw [exec_sqdecd_cases]
    cases s.par.haveSve with
    | false => simp
    | true => cases s.par.sveAccess <;> simp

/-- The second check is reached only where the first passes (R112, R114). -/
theorem exec_eq_sveAccessTrap_iff (i : Instr) (s : State) :
    exec i s = .fault (.exception .sveAccessTrap) ↔ s.par.haveSve = true ∧ s.par.sveAccess = .trapped := by
  cases i with
  | sqdecdVector imm4 pattern zdn =>
    rw [exec_sqdecd_cases]
    cases s.par.haveSve with
    | false => simp
    | true => cases s.par.sveAccess <;> simp

/-- Settles O25: each exception is decided by the two parameters, for every instruction alike. -/
theorem exceptionPriority : Obligations.ExceptionPriority := by
  unfold Obligations.ExceptionPriority
  exact fun s imm4 pattern zdn => ⟨exec_eq_undefinedInstruction_iff _ s, exec_eq_sveAccessTrap_iff _ s⟩

/-! ### The step on a matching word (R110, R126) -/

/-- Settles O26: the step is the execution of the instruction with the word's fields, whose outcome the parameters decide. -/
theorem outcomeOfAMatchingWord : Obligations.OutcomeOfAMatchingWord := by
  unfold Obligations.OutcomeOfAMatchingWord
  intro s w hf hm
  rw [step_of_decode_instr hf (decode_of_match ((isSqdecd_iff w).mpr hm))]
  refine ⟨(exec_eq_undefinedInstruction_iff _ s).mpr, fun hsve haccess => ?_, fun hsve haccess => ?_⟩
  · exact (exec_eq_sveAccessTrap_iff _ s).mpr ⟨hsve, haccess⟩
  · refine ⟨_, exec_of_sveReady ⟨hsve, haccess⟩ .., decremented_pc .., fun e he => ?_⟩
    exact (congrArg BitVec.toInt (lane_decremented_same s _ _ _ e he)).trans (toInt_decrementLane _ _)

/-! ### The reasons of a fault and of a refusal (R18, R62, R125) -/

/-- A step raises an exception exactly where it has fetched a matching word whose instruction raises it. -/
theorem step_eq_exception_iff (s : State) (r : FaultReason) :
    step s = .fault (.exception r) ↔
      ∃ w i, s.fetch = .word w ∧ decode w = .instr i ∧ exec i s = .fault (.exception r) := by
  constructor
  · intro h
    cases hf : s.fetch with
    | word w =>
      cases hd : decode w with
      | instr i => exact ⟨w, i, rfl, hd, step_of_decode_instr hf hd ▸ h⟩
      | notInSpec v => cases (step_of_decode_notInSpec hf hd).symm.trans h
    | programEnd => cases (step_of_programEnd hf).symm.trans h
    | nothing => cases (step_of_nothing hf).symm.trans h
  · rintro ⟨w, i, hf, hd, h⟩
    rw [step_of_decode_instr hf hd, h]

/-- An exception that every instruction raises under one condition on the state is raised by a step exactly under that
condition and on a matching word. -/
theorem step_eq_exception_iff_of_exec {s : State} {r : FaultReason} {p : Prop}
    (h : ∀ i, exec i s = .fault (.exception r) ↔ p) :
    step s = .fault (.exception r) ↔ p ∧ ∃ w, s.fetch = .word w ∧ w &&& 0xFFF0FC00#32 = 0x04E0C800#32 := by
  simp only [step_eq_exception_iff, h, ← isSqdecd_iff, ← exists_decode_eq_instr_iff]
  constructor
  · exact fun ⟨w, i, hf, hd, hp⟩ => ⟨hp, w, hf, i, hd⟩
  · exact fun ⟨hp, w, hf, i, hd⟩ => ⟨w, i, hf, hd, hp⟩

/-- A step refuses a word as not in the spec exactly where it has fetched that word and the word does not match (R62). -/
theorem step_eq_notInSpec_iff (s : State) (w : Word) :
    step s = .refused (.unspecified (.notInSpec w)) ↔ s.fetch = .word w ∧ w &&& 0xFFF0FC00#32 ≠ 0x04E0C800#32 := by
  constructor
  · intro h
    cases hf : s.fetch with
    | word v =>
      rcases step_outcomes_of_word hf with ⟨t, h'⟩ | h' | h' | ⟨hne, h'⟩ <;> cases h'.symm.trans h
      exact ⟨rfl, hne⟩
    | programEnd => cases (step_of_programEnd hf).symm.trans h
    | nothing => cases (step_of_nothing hf).symm.trans h
  · rintro ⟨hf, hne⟩
    exact step_of_decode_notInSpec hf (decode_of_not_match ((isSqdecd_eq_false_iff w).mpr hne))

/-- R18's faults are the model's exceptions: its two other stops are no faults there (logs 7, 8). -/
theorem specOutcome_eq_fault_iff (o : Result) (r : FaultReason) :
    specOutcome o = some (.fault r) ↔ o = .fault (.exception r) := by
  cases o with
  | next t => simp [specOutcome]
  | fault f => cases f <;> simp [specOutcome]
  | refused f => cases f <;> simp [specOutcome]

theorem specOutcome_eq_refused_iff (o : Result) (r : RefusalReason) :
    specOutcome o = some (.refused r) ↔ o = .refused (.unspecified r) := by
  cases o with
  | next t => simp [specOutcome]
  | fault f => cases f <;> simp [specOutcome]
  | refused f => cases f <;> simp [specOutcome]

theorem specStep_eq_fault_iff (s : State) (r : FaultReason) :
    specStep s = some (.fault r) ↔ step s = .fault (.exception r) :=
  specOutcome_eq_fault_iff _ r

theorem specStep_eq_refused_iff (s : State) (r : RefusalReason) :
    specStep s = some (.refused r) ↔ step s = .refused (.unspecified r) :=
  specOutcome_eq_refused_iff _ r

/-- A fetched word stands below the end of the program; a program of `2^64` bytes would end where it begins (log 10). -/
theorem not_isFinal_of_fetch_word {s : State} {w : Word} (hf : s.fetch = .word w)
    (hlen : 4 * s.par.prog.length < 2 ^ 64) : ¬ s.isFinal := by
  have hle := pcOffset_add_four_le_of_fetch_word hf
  rw [isFinal_iff_pcOffset hlen]
  omega

/-- What faults or is refused has been fetched (R125). -/
theorem exists_fetch_word_of_specStep {s : State}
    (h : (∃ r, specStep s = some (.fault r)) ∨ ∃ r, specStep s = some (.refused r)) : ∃ w, s.fetch = .word w := by
  rcases h with ⟨r, h⟩ | ⟨⟨w⟩, h⟩
  · obtain ⟨w, -, hf, -, -⟩ := (step_eq_exception_iff s r).mp ((specStep_eq_fault_iff s r).mp h)
    exact ⟨w, hf⟩
  · obtain ⟨hf, -⟩ := (step_eq_notInSpec_iff s w).mp ((specStep_eq_refused_iff s _).mp h)
    exact ⟨w, hf⟩

/-- Settles O33: the reasons by the inversions of the step, the closed types by their constructors, and no final state because
a word was fetched. -/
theorem reasonsOfFaultAndRefusal : Obligations.ReasonsOfFaultAndRefusal := by
  unfold Obligations.ReasonsOfFaultAndRefusal
  refine ⟨fun s => ⟨?_, ?_, fun w => ?_⟩, fun r => ?_, fun ⟨w⟩ => ⟨w, rfl⟩, fun s hlen h => ?_⟩
  · exact (specStep_eq_fault_iff s _).trans
      (step_eq_exception_iff_of_exec fun i => exec_eq_undefinedInstruction_iff i s)
  · rw [← and_assoc]
    exact (specStep_eq_fault_iff s _).trans (step_eq_exception_iff_of_exec fun i => exec_eq_sveAccessTrap_iff i s)
  · exact (specStep_eq_refused_iff s _).trans (step_eq_notInSpec_iff s w)
  · cases r with
    | undefinedInstruction => exact .inl rfl
    | sveAccessTrap => exact .inr rfl
  · obtain ⟨w, hf⟩ := exists_fetch_word_of_specStep h
    exact not_isFinal_of_fetch_word hf hlen

end Sys2Proof.Machine

/-! Proofs of the family `70_reset_and_hazards.md`: where a step completes, where a run ends, and how long it can be. -/

namespace Sys2Proof

/-- Every vector length is the legal length of its own number of bits (R5, R132 c). -/
theorem ofBits_bits (v : VecLen) : VecLen.ofBits v.bits = .ok v := by
  obtain ⟨q⟩ := v
  have hq : 128 * (q.val + 1) / 128 - 1 = q.val := by omega
  rw [VecLen.ofBits, VecLen.bits, if_pos (by omega), hq, Fin.ofNat_val_eq_self]

namespace Machine

/-! ### Where a step completes (R132) -/

theorem pc_eq_base_add_pcOffset (s : State) : s.pc = s.par.base + BitVec.ofNat 64 s.pcOffset := by
  rw [State.pcOffset, BitVec.ofNat_toNat, BitVec.setWidth_eq, add_sub_cancel]

/-- The fetch finds a word exactly where the program stands legally and `pc` is the address of that word in it (R41, R132 d). -/
theorem fetch_eq_word_iff (s : State) (w : Word) :
    s.fetch = .word w ↔
      s.par.legal = true ∧ ∃ i, s.par.prog[i]? = some w ∧ s.pc = s.par.base + BitVec.ofNat 64 (4 * i) := by
  constructor
  · intro hf
    obtain ⟨hl, -, h4, hw⟩ := fetch_word hf
    have hoff : 4 * (s.pcOffset / 4) = s.pcOffset := by omega
    exact ⟨hl, s.pcOffset / 4, hw, by rw [hoff]; exact pc_eq_base_add_pcOffset s⟩
  · rintro ⟨hl, i, hw, hpc⟩
    exact (fetchReadsTheProgram s i w hl hw hpc).1

/-- A step completes exactly where both checks pass and it fetches an encoding of the instruction (R62, R126). -/
theorem exists_step_next_iff (s : State) :
    (∃ t, step s = .next t) ↔ s.sveReady ∧ ∃ w, s.fetch = .word w ∧ w &&& 0xFFF0FC00#32 = 0x04E0C800#32 := by
  constructor
  · rintro ⟨t, h⟩
    obtain ⟨w, imm4, pattern, zdn, hf, hd, hsve, haccess, -⟩ := step_next h
    have hm := (exists_decode_eq_instr_iff w).mp ⟨_, hd⟩
    exact ⟨⟨hsve, haccess⟩, w, hf, (isSqdecd_iff w).mp hm⟩
  · rintro ⟨hready, w, hf, hm⟩
    have hd := decode_of_match ((isSqdecd_iff w).mpr hm)
    exact ⟨_, (step_of_decode_instr hf hd).trans (exec_of_sveReady hready ..)⟩

/-- Settles O31: the two checks, and the fetch of a matching word, which asks for the legal place; the length by its type. -/
theorem stepCompletesExactlyOnAReadyMatchingWord : Obligations.StepCompletesExactlyOnAReadyMatchingWord := by
  unfold Obligations.StepCompletesExactlyOnAReadyMatchingWord
  refine fun s => ⟨?_, ofBits_bits s.par.vl⟩
  simp only [exists_step_next_iff, fetch_eq_word_iff, legal_iff]
  constructor
  · rintro ⟨⟨hsve, haccess⟩, w, ⟨⟨hbase, htop⟩, i, hw, hpc⟩, hm⟩
    exact ⟨hsve, haccess, hbase, htop, i, w, hw, hpc, hm⟩
  · rintro ⟨hsve, haccess, hbase, htop, i, w, hw, hpc, hm⟩
    exact ⟨⟨hsve, haccess⟩, w, ⟨⟨hbase, htop⟩, i, hw, hpc⟩, hm⟩

/-! ### Where a run ends (R133) -/

/-- R18's `Final` is what the model carries as `endOfProgram` (log 7). -/
theorem specOutcome_eq_final_iff (o : Result) : specOutcome o = some .final ↔ o = .fault .endOfProgram := by
  cases o with
  | next t => simp [specOutcome]
  | fault f => cases f <;> simp [specOutcome]
  | refused f => cases f <;> simp [specOutcome]

theorem specStep_eq_final_iff (s : State) : specStep s = some .final ↔ step s = .fault .endOfProgram :=
  specOutcome_eq_final_iff _

/-- Where the model finds nothing at `pc` the spec has no outcome (log 8). -/
theorem specStep_of_noInstructionAtPc {s : State} (h : step s = .fault .noInstructionAtPc) : specStep s = none := by
  rw [specStep, h]
  rfl

/-- Settles O36: a step of a run has an outcome of the spec, and it is `Final` exactly in a final state. -/
theorem runEndsOneWordPastTheProgram : Obligations.RunEndsOneWordPastTheProgram := by
  unfold Obligations.RunEndsOneWordPastTheProgram
  intro s hinv hlen
  obtain ⟨o, ho, hfinal⟩ := stepHasOneOfFourOutcomes s hinv hlen
  constructor
  · rw [← specStep_eq_final_iff, ho, Option.some_inj, hfinal]
  · intro hnothing
    cases ho.symm.trans (specStep_of_noInstructionAtPc hnothing)

/-! ### How long a run can be (R89, R133) -/

/-- A machine's run of `k + 1` completed steps is a completed step and a run of `k` completed steps after it. -/
theorem run_succ_next {M : Host.Core} {k : Nat} {s t : M.State} (h : M.run (k + 1) s = .next t) :
    ∃ u, M.step s = .next u ∧ M.run k u = .next t := by
  unfold Host.Core.run at h
  split at h
  case h_1 u hu => exact ⟨u, hu, h⟩
  case h_2 => cases h
  case h_3 => cases h

/-- A completed step of a program below `2^64` bytes moves `pc` one word on and does not wrap it around to `base` (log 10). -/
theorem pcOffset_of_step_next {s t : State} (hlen : 4 * s.par.prog.length < 2 ^ 64) (h : step s = .next t) :
    t.pcOffset = s.pcOffset + 4 := by
  obtain ⟨w, imm4, pattern, zdn, hf, -, -, -, rfl⟩ := step_next h
  have hle := pcOffset_add_four_le_of_fetch_word hf
  rw [decremented_pcOffset, Nat.mod_eq_of_lt (by omega)]

/-- Settles O37, by induction on the number of steps: the first step keeps the invariant and the parameters, so that the steps
after it are a run of the same program from one word further on. -/
theorem runsAreBoundedByTheProgram : Obligations.RunsAreBoundedByTheProgram := by
  unfold Obligations.RunsAreBoundedByTheProgram
  intro s t k
  induction k generalizing s with
  | zero =>
    rintro ⟨-, -, hle⟩ - h
    cases h
    exact ⟨by simp, hle, rfl⟩
  | succ k ih =>
    intro hinv hlen h
    obtain ⟨u, hstep, hrun⟩ : ∃ u, step s = .next u ∧ core.run k u = .next t := run_succ_next h
    obtain ⟨hpar, hpc, -, -⟩ := everyStepChangesAtMostOneRegister s u hstep
    have hoff := pcOffset_of_step_next hlen hstep
    have huinv := everyStepKeepsTheInvariant s u hinv hstep
    obtain ⟨htpc, htle, htpar⟩ := ih u huinv (by rwa [hpar]) hrun
    rw [hpar] at htle htpar
    refine ⟨?_, by omega, htpar⟩
    rw [htpc, hpc]
    bv_omega

end Machine

end Sys2Proof
